-- ==== Sys2Proof/Word.lean ====
section
/-! DEFINITION. The value types: the Word, and the byte of the two streams (10_state.md R10, R24, R25).
Nothing else stands here; the arithmetic is in Machine/Flags.lean and the byte layout in Machine/Memory.lean. -/

namespace Sys2Proof

/-- The 32-bit unsigned integer, the only value of registers, memory cells, addresses and instructions (R10). -/
abbrev Word := BitVec 32

/-- A byte of the input or output stream, the only narrower value (R10, R24, R25). -/
abbrev Byte := BitVec 8

end Sys2Proof
end

