-- ==== Sys2Proof/Syntax.lean ====
section
/-! DEFINITION. The sixteen instructions and the one record of fields they share (30_encoding.md R50 to R57).
The trailing immediate is no part of an instruction (R59): the operand resolver reads it from memory when it
needs it (40_engine_and_operands.md R77). -/

namespace Sys2Proof

/-- The unpacked fields of an instruction word beside its opcode (R50, R52, R53, R54).
A register index is a number 0 to 15 (checked in WellFormed.lean); 15 names no register (R63). -/
structure Fields where
  /-- bit 27: the c operand is the trailing immediate -/
  imm : Bool
  /-- bit 26, regC-deref -/
  dc : Bool
  /-- bit 25, regB-deref -/
  db : Bool
  /-- bit 24, regA-deref -/
  da : Bool
  /-- bits 11:8 -/
  rC : Nat
  /-- bits 7:4 -/
  rB : Nat
  /-- bits 3:0 -/
  rA : Nat
  deriving DecidableEq, Repr

/-- The sixteen names an opcode can select (R57), in the order of the default numbering. -/
inductive Mnemonic where
  | halt | move | add | sub | mul | div | shr | shl | nand | xor
  | br | brz | brnz | input | output | builtin
  deriving DecidableEq, Repr

/-- The instructions, one constructor per row of spec/opcode_table.json. -/
inductive Instr where
  /-- HALT, R100 -/
  | halt (f : Fields)
  /-- MOVE, R101 -/
  | move (f : Fields)
  /-- ADD, R111 -/
  | add (f : Fields)
  /-- SUB, R112 -/
  | sub (f : Fields)
  /-- MUL, R113 -/
  | mul (f : Fields)
  /-- DIV, R118 -/
  | div (f : Fields)
  /-- SHR, R114 -/
  | shr (f : Fields)
  /-- SHL, R115 -/
  | shl (f : Fields)
  /-- NAND, R116 -/
  | nand (f : Fields)
  /-- XOR, R117 -/
  | xor (f : Fields)
  /-- BR, R130 -/
  | br (f : Fields)
  /-- BRZ, R131 -/
  | brz (f : Fields)
  /-- BRNZ, R132 -/
  | brnz (f : Fields)
  /-- IN, R140 -/
  | input (f : Fields)
  /-- OUT, R142 -/
  | output (f : Fields)
  /-- BIF, R144 -/
  | builtin (f : Fields)
  deriving DecidableEq, Repr

/-- The fields of an instruction. -/
def Instr.fields : Instr → Fields
  | .halt f | .move f | .add f | .sub f | .mul f | .div f | .shr f | .shl f | .nand f | .xor f
  | .br f | .brz f | .brnz f | .input f | .output f | .builtin f => f

/-- The name of an instruction. -/
def Instr.mnemonic : Instr → Mnemonic
  | .halt _ => .halt
  | .move _ => .move
  | .add _ => .add
  | .sub _ => .sub
  | .mul _ => .mul
  | .div _ => .div
  | .shr _ => .shr
  | .shl _ => .shl
  | .nand _ => .nand
  | .xor _ => .xor
  | .br _ => .br
  | .brz _ => .brz
  | .brnz _ => .brnz
  | .input _ => .input
  | .output _ => .output
  | .builtin _ => .builtin

/-- The instruction of a name and its fields. -/
def Mnemonic.instr : Mnemonic → Fields → Instr
  | .halt => .halt
  | .move => .move
  | .add => .add
  | .sub => .sub
  | .mul => .mul
  | .div => .div
  | .shr => .shr
  | .shl => .shl
  | .nand => .nand
  | .xor => .xor
  | .br => .br
  | .brz => .brz
  | .brnz => .brnz
  | .input => .input
  | .output => .output
  | .builtin => .builtin

end Sys2Proof
end

