-- ==== Sys2Proof/Config.lean ====
section
/-! DEFINITION. The parameters of the machine (00_scope.md R5) as plain data, and the one free value, the builtins.
The default values stand in Machine/Params.lean. -/

namespace Sys2Proof

/-- The register file: one Word for each index 0 to 14 (10_state.md R11). -/
abbrev RegFile := Vector Word 15

/-- Memory as a list of byte cells, in the canonical form of Machine/Memory.lean. The Word at word address `k` is
the four cells `4k` to `4k+3`, the high byte first, as in the program image (20_memory.md R32; log entry 3). -/
abbrev Memory := List Host.Cell

/-- `OPNUM`: the opcode value of each mnemonic, in the order of `Mnemonic` (30_encoding.md R57). -/
abbrev OpNum := Vector (BitVec 4) 16

/-- `SHIFT_GE32`: the result of SHR and SHL when the count is 32 or more (42_arithmetic_logic.md R114, R115). -/
inductive ShiftGe32 where
  | zero | mod32 | refuse
  deriving DecidableEq, Repr

/-- `IN_EXT`: how IN widens the byte (44_io_builtin.md R140). -/
inductive InExt where
  | zero | sign
  deriving DecidableEq, Repr

/-- `IN_EOF`: what IN does when the input is exhausted (44_io_builtin.md R141). -/
inductive InEof where
  | block
  | value (w : Word)
  deriving DecidableEq, Repr

/-- `BIF_BOUND`: which indices BIF rejects (44_io_builtin.md R146). -/
inductive BifBound where
  | strict | reference
  deriving DecidableEq, Repr

/-- The parameters of R5 that a step reads. They are fixed at reset and no step changes them (log entry 1). -/
structure Config where
  /-- `MEM_WORDS`, the number of Words in Memory -/
  memWords : Nat
  /-- `BIF_COUNT`, the size of the builtin dispatch table -/
  bifCount : Nat
  /-- `OPNUM` -/
  opnum : OpNum
  /-- `SHIFT_GE32` -/
  shiftGe32 : ShiftGe32
  /-- `IN_EXT` -/
  inExt : InExt
  /-- `IN_EOF` -/
  inEof : InEof
  /-- `BIF_BOUND` -/
  bifBound : BifBound
  /-- `STRICT_RESERVED` -/
  strictReserved : Bool
  /-- `STRICT_BOUNDS` -/
  strictBounds : Bool
  deriving DecidableEq, Repr

/-- What a builtin is given: the register file, Memory with its size, and the two streams (44_io_builtin.md R144, R145). -/
structure BuiltinPorts where
  regs : RegFile
  memWords : Nat
  mem : Memory
  inp : List Byte
  out : List Byte
  deriving DecidableEq, Repr

/-- What a builtin that returns has done (R145): the registers it leaves, the Words it wrote to Memory in order, how
many input bytes it took, the bytes it emitted, and the Word it returns. -/
structure BuiltinEffect where
  regs : RegFile
  writes : List (Word × Word)
  consumed : Nat
  emitted : List Byte
  ret : Word
  deriving DecidableEq, Repr

/-- A builtin returns, or blocks for ever (R145, the empty set of outcomes). -/
inductive BuiltinResult where
  | blocks
  | returns (e : BuiltinEffect)
  deriving DecidableEq, Repr, Inhabited

/-- FREE VALUE (log entry 10). `Builtin` of R5 and R145: what the builtin of an index does, for the number of builtin
calls completed so far and the state it is given. The spec leaves it open (D17), so it has no body: every statement
about BIF holds for whatever the builtins do. The call number makes it a relation rather than a function of the
state: two calls on equal states may end differently. -/
opaque Config.builtin (call : Nat) (index : Word) (ports : BuiltinPorts) : BuiltinResult

end Sys2Proof
end

