-- ==== Sys2Proof/WellFormed.lean ====
section
/-! DEFINITION. Which instruction terms stand for an instruction word: each register index fits its four-bit field
(30_encoding.md R53, R54: indices 0 to 15; all sixteen combinations of the mode bits are legal, R52). -/

namespace Sys2Proof

/-- The three register indices fit their fields (R53, R54). -/
abbrev Fields.WellFormed (f : Fields) : Prop := f.rC < 16 ∧ f.rB < 16 ∧ f.rA < 16

/-- An instruction is well formed when its fields are. -/
abbrev Instr.WellFormed (i : Instr) : Prop := i.fields.WellFormed

end Sys2Proof
end

