-- ==== Sys2Proof/Decode.lean ====
section
/-! DEFINITION. Decoding and packing (30_encoding.md R50 to R65): the fields of a word, OPNUM both ways, the decoder,
the packer, the length of an instruction and its canonical form. -/

namespace Sys2Proof

/-- `w[31:28]` (R51). -/
def opField (w : Word) : BitVec 4 := w.extractLsb' 28 4

/-- `w[23:12]`, the reserved field (R56). -/
def rsvField (w : Word) : BitVec 12 := w.extractLsb' 12 12

/-- The mode bits and register indices of a word (R52, R53, R54). -/
def unpackFields (w : Word) : Fields where
  imm := w.getLsbD 27
  dc := w.getLsbD 26
  db := w.getLsbD 25
  da := w.getLsbD 24
  rC := (w.extractLsb' 8 4).toNat
  rB := (w.extractLsb' 4 4).toNat
  rA := (w.extractLsb' 0 4).toNat

/-- The place of a mnemonic in an `OpNum`. -/
def Mnemonic.index : Mnemonic → Fin 16
  | .halt => 0
  | .move => 1
  | .add => 2
  | .sub => 3
  | .mul => 4
  | .div => 5
  | .shr => 6
  | .shl => 7
  | .nand => 8
  | .xor => 9
  | .br => 10
  | .brz => 11
  | .brnz => 12
  | .input => 13
  | .output => 14
  | .builtin => 15

/-- The sixteen mnemonics (R1, R57). -/
def allMnemonics : List Mnemonic :=
  [.halt, .move, .add, .sub, .mul, .div, .shr, .shl, .nand, .xor, .br, .brz, .brnz, .input, .output, .builtin]

/-- `OPNUM(m)` (R57). -/
def OpNum.code (n : OpNum) (m : Mnemonic) : BitVec 4 := n.get m.index

/-- The mnemonic an opcode value selects, `none` for a value that is no mnemonic's (R73, R154). -/
def OpNum.select (n : OpNum) (op : BitVec 4) : Option Mnemonic := allMnemonics.find? (fun m => n.code m == op)

/-- PRESUMED (log entry 2): the default `OPNUM`, HALT 0, MOVE 1, ADD 2, SUB 3, MUL 4, DIV 5, SHR 6, SHL 7, NAND 8,
XOR 9, BR 10, BRZ 11, BRNZ 12, IN 13, OUT 14, BIF 15 (R57, D1). -/
def defaultOpNum : OpNum := #v[0, 1, 2, 3, 4, 5, 6, 7, 8, 9, 10, 11, 12, 13, 14, 15]

/-- Why a word is no instruction. -/
inductive DecodeError where
  /-- the reserved field is not zero (R56) -/
  | reserved (rsv : BitVec 12)
  /-- the opcode value is the number of no instruction (R154) -/
  | opcode (op : BitVec 4)
  deriving DecidableEq, Repr

/-- The instruction of a word, total over all words: the reserved field is looked at first, then the opcode (R56, R62,
R72, R73, D7). -/
def decode (n : OpNum) (w : Word) : Except DecodeError Instr :=
  if rsvField w = 0 then
    match n.select (opField w) with
    | some m => .ok (m.instr (unpackFields w))
    | none => .error (.opcode (opField w))
  else .error (.reserved (rsvField w))

/-- A mode bit at its place in the word. -/
def modeBit (b : Bool) (place : Nat) : Word := (BitVec.ofBool b).setWidth 32 <<< place

/-- `pack` of R55: the word of an opcode value and fields, the reserved field zero. -/
def pack (op : BitVec 4) (f : Fields) : Word :=
  (op.setWidth 32 <<< 28) ||| modeBit f.imm 27 ||| modeBit f.dc 26 ||| modeBit f.db 25 ||| modeBit f.da 24
    ||| (BitVec.ofNat 32 f.rC <<< 8) ||| (BitVec.ofNat 32 f.rB <<< 4) ||| BitVec.ofNat 32 f.rA

/-- The word of an instruction (R55). -/
def encode (n : OpNum) (i : Instr) : Word := pack (n.code i.mnemonic) i.fields

/-- Whether the instruction of this name reads a trailing immediate when its `imm` bit is set: every one but HALT and
IN (R59). -/
def Mnemonic.takesImmediate : Mnemonic → Bool
  | .halt | .input => false
  | .move | .add | .sub | .mul | .div | .shr | .shl | .nand | .xor | .br | .brz | .brnz | .output | .builtin => true

/-- The number of Words an instruction occupies (R59). -/
def Instr.length (i : Instr) : Nat := if i.fields.imm && i.mnemonic.takesImmediate then 2 else 1

/-- The c operand's register field is ignored when the immediate takes its place (R58, R61). -/
def Fields.canonC (f : Fields) : Fields := if f.imm then { f with rC := 0 } else f

/-- The instruction with every field it ignores at 0 (R58, R61, R65). -/
def Instr.canonical : Instr → Instr
  | .halt _ => .halt { imm := false, dc := false, db := false, da := false, rC := 0, rB := 0, rA := 0 }
  | .move f => .move { f.canonC with da := false, rA := 0 }
  | .add f => .add f.canonC
  | .sub f => .sub f.canonC
  | .mul f => .mul f.canonC
  | .div f => .div f.canonC
  | .shr f => .shr f.canonC
  | .shl f => .shl f.canonC
  | .nand f => .nand f.canonC
  | .xor f => .xor f.canonC
  | .br f => .br { f.canonC with db := false, da := false, rB := 0, rA := 0 }
  | .brz f => .brz { f.canonC with db := false, da := false, rB := 0, rA := 0 }
  | .brnz f => .brnz { f.canonC with db := false, da := false, rB := 0, rA := 0 }
  | .input f => .input { f with imm := false, db := false, da := false, rB := 0, rA := 0 }
  | .output f => .output { f.canonC with db := false, da := false, rB := 0, rA := 0 }
  | .builtin f => .builtin { f.canonC with db := false, da := false, rB := 0, rA := 0 }

/-- The Word of an instruction whose `nbits` bits are `w`, every bit above them 0. -/
def tableWord (nbits w : Nat) : Word := BitVec.ofNat 32 (w % 2 ^ nbits)

/-- The instruction the decoder reads, under the default `OPNUM`, from an instruction whose bits are `w`, numbered as
spec/opcode_table.json numbers them. Memory holds whole Words, so the first word is the Word itself (R31, R32). -/
def decodeTableWord (nbits w : Nat) : Option Instr := (decode defaultOpNum (tableWord nbits w)).toOption

end Sys2Proof
end

