-- ==== Sys2Proof/Machine/Memory.lean ====
section
/-! DEFINITION. Memory in its canonical form, and the Word access over it (20_memory.md R31, R32, R35). -/

namespace Sys2Proof.Machine

/-- What a byte of memory that nothing has written reads as. DESIGN CHOICE (log entry 4): the spec leaves `MEM_FILL`
open (D18, N19). -/
def unlistedByte : Byte := 0

/-- The byte at a byte address. -/
def readByte : Memory → Nat → Byte
  | [], _ => unlistedByte
  | (k, b) :: m, a => if k = a then b else readByte m a

/-- Memory with one byte written, in canonical form: an unlisted value is not listed. -/
def writeByte : Memory → Nat → Byte → Memory
  | [], a, v => if v = unlistedByte then [] else [(a, v)]
  | (k, b) :: m, a, v =>
    if a < k then (if v = unlistedByte then (k, b) :: m else (a, v) :: (k, b) :: m)
    else if a = k then (if v = unlistedByte then m else (a, v) :: m)
    else (k, b) :: writeByte m a v

/-- Addresses strictly rise from `lo` on, and no cell lists what an unlisted address reads as. -/
def canonicalFrom (lo : Nat) : Memory → Bool
  | [] => true
  | (k, b) :: m => decide (lo ≤ k) && decide (b ≠ unlistedByte) && canonicalFrom (k + 1) m

/-- The canonical form of memory. -/
def memoryWf (m : Memory) : Bool := canonicalFrom 0 m

/-- Every listed cell lies in the first `words` Words (10_state.md R23). -/
def memoryWithin (words : Nat) (m : Memory) : Bool := m.all (fun c => decide (c.1 < 4 * words))

/-- A Word from its four bytes, the first one highest (R32). -/
def wordOfBytes (b0 b1 b2 b3 : Byte) : Word := b0 ++ b1 ++ b2 ++ b3

/-- Byte `j` of a Word, byte 0 being bits 31:24 (R32). -/
def byteOfWord (w : Word) (j : Nat) : Byte := w.extractLsb' (24 - 8 * j) 8

/-- The Word at a word address (R31, R36). -/
def readWord (m : Memory) (a : Nat) : Word :=
  wordOfBytes (readByte m (4 * a)) (readByte m (4 * a + 1)) (readByte m (4 * a + 2)) (readByte m (4 * a + 3))

/-- Memory with the Word at a word address written (R31, R36). -/
def writeWord (m : Memory) (a : Nat) (v : Word) : Memory :=
  writeByte (writeByte (writeByte (writeByte m (4 * a) (byteOfWord v 0)) (4 * a + 1) (byteOfWord v 1))
    (4 * a + 2) (byteOfWord v 2)) (4 * a + 3) (byteOfWord v 3)

/-- Memory with a list of Words written from a word address upward (20_memory.md R37). -/
def loadWords (m : Memory) (a : Nat) : List Word → Memory
  | [] => m
  | w :: ws => loadWords (writeWord m a w) (a + 1) ws

/-- The Words of a program image file, four bytes each, big-endian (R32); `none` for a length that is no multiple of
four, of which the spec says nothing (91_not_in_source.md N14). -/
def imageWords : List Byte → Option (List Word)
  | [] => some []
  | b0 :: b1 :: b2 :: b3 :: rest => (imageWords rest).map (wordOfBytes b0 b1 b2 b3 :: ·)
  | _ => none

end Sys2Proof.Machine
end

