-- ==== Sys2Proof/Machine/Params.lean ====
section
/-! DEFINITION. What reset takes (70_reset_and_hazards.md R180) and the values the model gives it where the spec leaves
them open (00_scope.md R5). -/

namespace Sys2Proof.Machine

/-- The parameters of reset (R180). The builtins themselves are `Config.builtin`. -/
structure ResetParams where
  cfg : Config
  /-- `IMAGE`, from address 0 upward; its length is `PROG_WORDS` -/
  image : List Word
  /-- `MEM_FILL` for the addresses from `PROG_WORDS` upward; an address past the list reads as unlisted -/
  memFill : List Word
  /-- `IP_INIT` -/
  ipInit : Word
  /-- `SP_INIT` -/
  spInit : Word
  /-- `REG_INIT`: ZERO, R1 to R9, RET, TMP -/
  regInit : Vector Word 12
  /-- `INPUT` -/
  input : List Byte
  deriving DecidableEq, Repr

/-- The default of the decided parameters (R5), and the model's value of `MEM_WORDS` and `BIF_COUNT`, which the spec
leaves open. DESIGN CHOICE (log entries 5, 9, 13 to 17); `OPNUM` PRESUMED (log entry 2). -/
def defaultConfig : Config where
  memWords := 2 ^ 32
  bifCount := 0
  opnum := defaultOpNum
  shiftGe32 := .zero
  inExt := .zero
  inEof := .block
  bifBound := .strict
  strictReserved := true
  strictBounds := true

/-- The parameters of `State.reset`. DESIGN CHOICE (log entries 4 to 9): no image is loaded, IP and SP are 0, the
twelve registers of `REG_INIT` are 0 (D12), no input waits. -/
def defaultParams : ResetParams where
  cfg := defaultConfig
  image := []
  memFill := []
  ipInit := 0
  spInit := 0
  regInit := Vector.replicate 12 0
  input := []

/-- The register file after reset (10_state.md R28): FLAGS is 0. -/
def resetRegs (p : ResetParams) : RegFile :=
  #v[p.regInit[0], p.regInit[1], p.regInit[2], p.regInit[3], p.regInit[4], p.regInit[5], p.regInit[6], p.regInit[7],
    p.regInit[8], p.regInit[9], p.ipInit, p.spInit, p.regInit[10], p.regInit[11], 0]

/-- Memory after reset (R28): the image from address 0, then `MEM_FILL`. -/
def resetMemory (p : ResetParams) : Memory := loadWords [] 0 (p.image ++ p.memFill)

/-- The image and fill fit in Memory (R5, R181). -/
def resetFits (p : ResetParams) : Bool := decide (p.image.length + p.memFill.length ≤ p.cfg.memWords)

end Sys2Proof.Machine
end

