-- ==== Sys2Proof/Machine/State.lean ====
section
/-! DEFINITION. The state of the machine as plain data (10_state.md R27), the reasons a step can stop, and reset
(10_state.md R28, 70_reset_and_hazards.md R180). -/

namespace Sys2Proof.Machine

/-- The kind of a fatal condition (60_exceptions.md R150). -/
inductive FailKind where
  /-- status 1 -/
  | fail
  /-- status 2, declared and never produced (R157) -/
  | overflow
  /-- status 3 -/
  | illegal
  deriving DecidableEq, Repr

/-- The run state (10_state.md R21). -/
inductive RunState where
  | running
  | halted
  | failed (k : FailKind)
  deriving DecidableEq, Repr

/-- The state of the machine. `regs`, `mem`, `inp`, `out` and `run` are the spec's (R27); `cfg` and `bifCalls` are the
model's own (log entries 1 and 10). -/
structure State where
  /-- the parameters of 00_scope.md R5, never changed by a step (log entry 1) -/
  cfg : Config
  /-- `x[0]` to `x[14]` (R11) -/
  regs : RegFile
  /-- `Mem` (R23) -/
  mem : Memory
  /-- the input bytes not yet consumed (R24) -/
  inp : List Byte
  /-- the output bytes emitted so far, oldest first (R25) -/
  out : List Byte
  /-- `run` (R21) -/
  run : RunState
  /-- how many builtin calls have completed (log entry 10) -/
  bifCalls : Nat
  deriving DecidableEq, Repr

/-- Why the machine stops. -/
inductive Fault where
  /-- Raised by `step` on a state whose run state is not RUNNING: the engine performs no step there (40_engine_and_operands.md
  R70, 60_exceptions.md R162; log entry 12). Safe: the hardware does nothing there either. -/
  | notRunning (r : RunState)
  deriving DecidableEq, Repr

/-- Why the model gives a step no meaning. But for `notModelled` each stands for a parameter setting, never the default,
for which the spec says that the model must refuse (log entries 13, 14, 17). -/
inductive Refusal where
  /-- Answered by an arm of `exec` whose instruction has no meaning yet. No arm answers it. Safe. -/
  | notModelled (mnemonic : String)
  /-- Raised after decode by a word with a reserved bit set when `STRICT_RESERVED` is false (30_encoding.md R56). Safe. -/
  | reservedBits
  /-- Raised by a used register field that holds 15 when `STRICT_BOUNDS` is false (93_implementation_defined.md U3). Safe. -/
  | registerOutOfFile
  /-- Raised by an access at or above `MEM_WORDS` when `STRICT_BOUNDS` is false (20_memory.md R36). Safe. -/
  | addressOutOfMemory
  /-- Raised by SHR and SHL by 32 or more when `SHIFT_GE32` is `refuse` (42_arithmetic_logic.md R114, R115). Safe. -/
  | shiftCount
  /-- Raised by BIF with index `BIF_COUNT` when `BIF_BOUND` is `reference` (44_io_builtin.md R146). Safe. -/
  | builtinPastTable
  deriving DecidableEq, Repr

/-- The state reset establishes from its parameters (R28, R180): nothing survives from before (R29). -/
def State.resetWith (p : ResetParams) : State where
  cfg := p.cfg
  regs := resetRegs p
  mem := resetMemory p
  inp := p.input
  out := []
  run := .running
  bifCalls := 0

/-- The machine right after reset, with the parameters of `defaultParams`. -/
def State.reset : State := State.resetWith defaultParams

end Sys2Proof.Machine
end

