-- ==== Sys2Proof/Machine/Ops.lean ====
section
/-! DEFINITION. The named operations over registers, Memory and streams; taking a fatal condition, which is this
machine's only exception and from which there is no return (60_exceptions.md R150 to R162); and the micro-steps of an
instruction with the ways they can end. -/

namespace Sys2Proof.Machine

/-! ## Registers (10_state.md R11 to R20, 40_engine_and_operands.md R74) -/

/-- An index that names a register: 0 to 14. -/
abbrev Reg := Fin 15

/-- `IP`, the program counter (R12, R14). -/
abbrev regIP : Reg := 10

/-- `SP` (R12). -/
abbrev regSP : Reg := 11

/-- `RET` (R12). -/
abbrev regRET : Reg := 12

/-- `FLAGS` (R12, R17). -/
abbrev regFLAGS : Reg := 14

/-- `x[r]`. -/
def State.reg (s : State) (r : Reg) : Word := s.regs.get r

/-- `x[r] <- v`. No register is hardwired (R13). -/
def State.setReg (s : State) (r : Reg) (v : Word) : State := { s with regs := s.regs.set r.val v r.isLt }

/-- `x[IP]` (R14). -/
def State.ip (s : State) : Word := s.reg regIP

/-- `x[IP] <- t` (R14, R15). -/
def State.setIp (s : State) (t : Word) : State := s.setReg regIP t

/-- `x[IP] <- x[IP] + 1`, modulo 2^32 (R15, R16, D24). -/
def State.advance (s : State) : State := s.setIp (s.ip + 1)

/-! ## Memory (20_memory.md R36) -/

/-- The address is below `MEM_WORDS`. -/
def State.inMemory (s : State) (a : Word) : Bool := decide (a.toNat < s.cfg.memWords)

/-- `Mem[a]`. -/
def State.load (s : State) (a : Word) : Word := readWord s.mem a.toNat

/-- `Mem[a] <- v`. -/
def State.storeMem (s : State) (a : Word) (v : Word) : State := { s with mem := writeWord s.mem a.toNat v }

/-! ## Fatal conditions (60_exceptions.md R150 to R161) -/

/-- The cause labels of R151. The machine records only their kind (R158). -/
inductive Cause where
  | opcode | div0 | reserved | reg15 | oob | bifIndex
  deriving DecidableEq, Repr

/-- The kind of a cause (R151). -/
def Cause.kind : Cause → FailKind
  | .opcode | .div0 | .reserved | .reg15 | .oob => .illegal
  | .bifIndex => .fail

/-- Taking a fatal condition: `run` becomes FAILED(kind) and nothing else changes (R152, R153, R160). Nothing is saved
and control goes nowhere; there is no return (R162). -/
def State.takeFatal (s : State) (c : Cause) : State := { s with run := .failed c.kind }

/-- The status code the host reads, once the state is terminal (10_state.md R21, 60_exceptions.md R151). -/
def RunState.status : RunState → Option Nat
  | .running => none
  | .halted => some 0
  | .failed .fail => some 1
  | .failed .overflow => some 2
  | .failed .illegal => some 3

/-! ## Micro-steps

An instruction is a fixed sequence of micro-steps (60_exceptions.md R159). One that does not go through ends the
instruction: by a fatal condition, by blocking, or, under a parameter setting for which the spec demands it, by a
refusal. The state at that point is kept, since the writes already made stay (R152). -/

/-- How a micro-step ends its instruction early. -/
inductive Stop where
  | fatal (c : Cause)
  | blocked
  | refused (r : Refusal)
  deriving DecidableEq, Repr

/-- A micro-step: from a state to a value and a state, or to a stop and the state at the stop. -/
abbrev Micro := EStateM Stop State

/-- `raise Illegal(cause)` or `raise Fail(cause)` (R152, R153). -/
def raise {α : Type} (c : Cause) : Micro α := fun s => .error (.fatal c) s

/-- The wait of a blocked IN or BIF (44_io_builtin.md R141, R145). -/
def block {α : Type} : Micro α := fun s => .error .blocked s

/-- The refusal that the spec demands under some parameter settings. -/
def refuse {α : Type} (r : Refusal) : Micro α := fun s => .error (.refused r) s

/-- A bounds violation: Illegal under `STRICT_BOUNDS`, else a refusal (D5, D6, U2, U3). -/
def outOfBounds {α : Type} (c : Cause) (r : Refusal) : Micro α :=
  fun s => if s.cfg.strictBounds then raise c s else refuse r s

/-- The end of an instruction that began in `s`: a blocked one has changed nothing (60_exceptions.md R172; log entry 11). -/
def settle (s : State) : EStateM.Result Stop State Unit → Host.Outcome State Fault Refusal
  | .ok _ t => .next t
  | .error (.fatal c) t => .next (t.takeFatal c)
  | .error .blocked _ => .next s
  | .error (.refused r) _ => .refused r

/-- `x[IP] <- x[IP] + 1` as a micro-step. -/
def advanceIp : Micro Unit := modify State.advance

/-- An instruction from the state in which its word was fetched: the fetch's increment of IP, then its own micro-steps
(40_engine_and_operands.md R71, R75). The fetch itself is `fetchInstr` of Machine/Operands.lean. -/
def perform (body : Micro Unit) (s : State) : Host.Outcome State Fault Refusal :=
  settle s ((do advanceIp; body : Micro Unit) s)

/-! ## Streams (10_state.md R24, R25; 44_io_builtin.md R140 to R143) -/

/-- The byte widened by `IN_EXT` (R140). -/
def widenByte (e : InExt) (b : Byte) : Word :=
  match e with
  | .zero => b.setWidth 32
  | .sign => b.signExtend 32

/-- `InByte()` and the widening: the first byte of the input, taken and widened; on an empty input the wait, or the Word
of `IN_EOF`, which is not widened (R140, R141). -/
def takeInput : Micro Word := fun s =>
  match s.inp with
  | b :: rest => .ok (widenByte s.cfg.inExt b) { s with inp := rest }
  | [] =>
    match s.cfg.inEof with
    | .block => block s
    | .value w => .ok w s

/-- `OutByte(v[7:0])` (R142, R143). -/
def State.emit (s : State) (v : Word) : State := { s with out := s.out ++ [v.setWidth 8] }

/-! ## Builtins (44_io_builtin.md R144 to R147) -/

/-- What a builtin is given. -/
def State.ports (s : State) : BuiltinPorts where
  regs := s.regs
  memWords := s.cfg.memWords
  mem := s.mem
  inp := s.inp
  out := s.out

/-- One Word a builtin wrote; Memory has no cell at or above `MEM_WORDS` to take it (10_state.md R23; log entry 10). -/
def builtinWrite (words : Nat) (m : Memory) (w : Word × Word) : Memory :=
  if w.1.toNat < words then writeWord m w.1.toNat w.2 else m

/-- The state a builtin that returned leaves: it may change registers, Memory and streams, and nothing else (R145); the
Word it returns is discarded (R147). -/
def State.afterBuiltin (s : State) (e : BuiltinEffect) : State :=
  { s with
    regs := e.regs
    mem := e.writes.foldl (builtinWrite s.cfg.memWords) s.mem
    inp := s.inp.drop e.consumed
    out := s.out ++ e.emitted
    bifCalls := s.bifCalls + 1 }

/-- The call of the builtin of an index (R145). -/
def callBuiltin (index : Word) : Micro Unit := fun s =>
  match Config.builtin s.bifCalls index s.ports with
  | .blocks => block s
  | .returns e => .ok () (s.afterBuiltin e)

end Sys2Proof.Machine
end

