-- ==== Sys2Proof/Machine/Operands.lean ====
section
/-! DEFINITION. Fetch, the operand resolver and the write-back (40_engine_and_operands.md R71 to R89), in the order of
20_memory.md R40. -/

namespace Sys2Proof.Machine

/-- `x[i]` for the index of a register field: 15 raises Illegal(reg15) (R74). -/
def readReg (i : Nat) : Micro Word := fun s =>
  if h : i < 15 then .ok (s.reg ⟨i, h⟩) s else outOfBounds .reg15 .registerOutOfFile s

/-- `MemRead(a, 1)` (20_memory.md R36). -/
def memRead (a : Word) : Micro Word := fun s =>
  if s.inMemory a then .ok (s.load a) s else outOfBounds .oob .addressOutOfMemory s

/-- `FetchImm()`: the Word at IP, then IP advances; IP stays when the read raises (R71, R77). -/
def fetchImm : Micro Word := do
  let v ← memRead (← get).ip
  advanceIp
  return v

/-- One dereference when the mode bit asks for it (R78, R79). -/
def derefIf (d : Bool) (raw : Word) : Micro Word := if d then memRead raw else pure raw

/-- The raw c operand: the trailing immediate, or `x[rC]` (R78). -/
def rawC (f : Fields) : Micro Word := if f.imm then fetchImm else readReg f.rC

/-- `ResolveC(ins)`, the whole of single-operand resolution: the immediate is consumed before the dereference (R78, R81). -/
def resolveC (f : Fields) : Micro Word := do
  let raw ← rawC f
  derefIf f.dc raw

/-- `ResolveB(ins)` (R79). -/
def resolveB (f : Fields) : Micro Word := do
  let r ← readReg f.rB
  derefIf f.db r

/-- A destination (R85). -/
inductive Loc where
  | reg (r : Reg)
  | mem (a : Word)
  deriving DecidableEq, Repr

/-- The memory destination at an address, checked when it is resolved (R85). -/
def memLoc (a : Word) : Micro Loc := fun s =>
  if s.inMemory a then .ok (.mem a) s else outOfBounds .oob .addressOutOfMemory s

/-- The register destination of an index (R85). -/
def regLoc (i : Nat) : Micro Loc := fun s =>
  if h : i < 15 then .ok (.reg ⟨i, h⟩) s else outOfBounds .reg15 .registerOutOfFile s

/-- `ResolveDst(r, d)`: one level of indirection (R85, C8). -/
def resolveDst (i : Nat) (deref : Bool) : Micro Loc := do
  if deref then memLoc (← readReg i) else regLoc i

/-- `Store(loc, v)`, which cannot raise (R86). -/
def State.store (s : State) (d : Loc) (v : Word) : State :=
  match d with
  | .reg r => s.setReg r v
  | .mem a => s.storeMem a v

/-- `Store` as a micro-step. -/
def store (d : Loc) (v : Word) : Micro Unit := modify (·.store d v)

/-- `ResolveTriple(ins)`: destination, then b, then c (R80, D3). -/
def resolveTriple (f : Fields) : Micro (Loc × Word × Word) := do
  let dst ← resolveDst f.rA f.da
  let b ← resolveB f
  let c ← resolveC f
  return (dst, b, c)

/-- Fetch, decode and the reserved check (R71, R72, R73): the instruction at IP. A word with a reserved bit set raises
Illegal(reserved), or is refused when `STRICT_RESERVED` is false (30_encoding.md R56); an opcode value that is no
instruction's raises Illegal(opcode) (60_exceptions.md R154). -/
def fetchInstr : Micro Instr := do
  let w ← fetchImm
  match decode (← get).cfg.opnum w with
  | .ok i => pure i
  | .error (.reserved _) => if (← get).cfg.strictReserved then raise .reserved else refuse .reservedBits
  | .error (.opcode _) => raise .opcode

end Sys2Proof.Machine
end

