-- ==== Sys2Proof/Machine/Flags.lean ====
section
/-! DEFINITION. The ALU results (42_arithmetic_logic.md R111 to R118) and the one flag (10_state.md R17 to R19). All
arithmetic is on unsigned Words and wraps modulo 2^32 (R119). -/

namespace Sys2Proof.Machine

/-- `Z`, bit 1 of FLAGS (R17). -/
def State.zeroFlag (s : State) : Bool := (s.reg regFLAGS).getLsbD 1

/-- `x[FLAGS] <- x[FLAGS] | 0x2`: the other bits stay (R18, R19). -/
def State.setZero (s : State) : State := s.setReg regFLAGS (s.reg regFLAGS ||| 2)

/-- SUB's flag update, after the Store: Z is set on a zero result and never cleared (R112, C1). -/
def flagOnZero (r : Word) : Micro Unit := if r = 0 then modify State.setZero else pure ()

/-- ADD (R111). -/
def aluAdd (b c : Word) : Word := BitVec.ofNat 32 (b.toNat + c.toNat)

/-- SUB: the difference of two integers, reduced modulo 2^32 (R112). -/
def aluSub (b c : Word) : Word := BitVec.ofInt 32 ((b.toNat : Int) - (c.toNat : Int))

/-- MUL: the low half of the product (R113). -/
def aluMul (b c : Word) : Word := BitVec.ofNat 32 (b.toNat * c.toNat)

/-- DIV, for `c ≠ 0`: the floor of the quotient (R118). -/
def aluDiv (b c : Word) : Word := BitVec.ofNat 32 (b.toNat / c.toNat)

/-- SHR by a count: the floor of `b / 2^n` (R114). -/
def shiftRight (b : Word) (n : Nat) : Word := b >>> n

/-- SHL by a count: `b * 2^n` modulo 2^32 (R115). -/
def shiftLeft (b : Word) (n : Nat) : Word := b <<< n

/-- NAND (R116). -/
def aluNand (b c : Word) : Word := ~~~(b &&& c)

/-- XOR (R117). -/
def aluXor (b c : Word) : Word := b ^^^ c

/-- A shift by the whole count c, `SHIFT_GE32` deciding from 32 on (R114, R115, D8). -/
def aluShift (shift : Word → Nat → Word) (b c : Word) : Micro Word := fun s =>
  if c.toNat < 32 then .ok (shift b c.toNat) s
  else
    match s.cfg.shiftGe32 with
    | .zero => .ok 0 s
    | .mod32 => .ok (shift b (c.toNat % 32)) s
    | .refuse => refuse .shiftCount s

/-- DIV's zero test, on the resolved c and before the Store (R118, 60_exceptions.md R155). -/
def aluDivide (b c : Word) : Micro Word := if c = 0 then raise .div0 else pure (aluDiv b c)

end Sys2Proof.Machine
end

