-- ==== Sys2Proof/Machine/Alu.lean ====
section
/-! DEFINITION. The eight arithmetic and logic instructions (42_arithmetic_logic.md R110 to R119). -/

namespace Sys2Proof.Machine

/-- What the eight share: the three operands, the result, the Store (R110). The result is returned for SUB's flag. -/
def aluInstr (f : Fields) (op : Word → Word → Micro Word) : Micro Word := do
  let (dst, b, c) ← resolveTriple f
  let r ← op b c
  store dst r
  return r

/-- ADD (R111). -/
def execAdd (f : Fields) (s : State) : Host.Outcome State Fault Refusal :=
  perform (do let _ ← aluInstr f fun b c => pure (aluAdd b c)) s

/-- SUB: Z is set after the Store when the result is 0 (R112, D21). -/
def execSub (f : Fields) (s : State) : Host.Outcome State Fault Refusal :=
  perform (do
    let r ← aluInstr f fun b c => pure (aluSub b c)
    flagOnZero r) s

/-- MUL (R113). -/
def execMul (f : Fields) (s : State) : Host.Outcome State Fault Refusal :=
  perform (do let _ ← aluInstr f fun b c => pure (aluMul b c)) s

/-- DIV: c = 0 raises Illegal(div0) before the Store (R118). -/
def execDiv (f : Fields) (s : State) : Host.Outcome State Fault Refusal :=
  perform (do let _ ← aluInstr f aluDivide) s

/-- SHR (R114). -/
def execShr (f : Fields) (s : State) : Host.Outcome State Fault Refusal :=
  perform (do let _ ← aluInstr f (aluShift shiftRight)) s

/-- SHL (R115). -/
def execShl (f : Fields) (s : State) : Host.Outcome State Fault Refusal :=
  perform (do let _ ← aluInstr f (aluShift shiftLeft)) s

/-- NAND (R116). -/
def execNand (f : Fields) (s : State) : Host.Outcome State Fault Refusal :=
  perform (do let _ ← aluInstr f fun b c => pure (aluNand b c)) s

/-- XOR (R117). -/
def execXor (f : Fields) (s : State) : Host.Outcome State Fault Refusal :=
  perform (do let _ ← aluInstr f fun b c => pure (aluXor b c)) s

end Sys2Proof.Machine
end

