-- ==== Sys2Proof/Machine/Control.lean ====
section
/-! DEFINITION. HALT (41_halt_move.md R100) and the branches (43_branches.md R130 to R135). -/

namespace Sys2Proof.Machine

/-- HALT: `run <- HALTED(success)`, no operand, no immediate (R100). -/
def execHalt (_ : Fields) (s : State) : Host.Outcome State Fault Refusal :=
  perform (modify fun t => { t with run := .halted }) s

/-- What the branches share: the target is resolved whether or not the branch is taken (R133, R134), then the condition
is looked at. -/
def branchWhen (f : Fields) (taken : State → Bool) : Micro Unit := do
  let t ← resolveC f
  if taken (← get) then modify (·.setIp t) else pure ()

/-- BR: always taken (R130). -/
def execBr (f : Fields) (s : State) : Host.Outcome State Fault Refusal :=
  perform (branchWhen f fun _ => true) s

/-- BRZ: taken when Z is clear (R131). -/
def execBrz (f : Fields) (s : State) : Host.Outcome State Fault Refusal :=
  perform (branchWhen f fun t => !t.zeroFlag) s

/-- BRNZ: taken when Z is set (R132). -/
def execBrnz (f : Fields) (s : State) : Host.Outcome State Fault Refusal :=
  perform (branchWhen f fun t => t.zeroFlag) s

end Sys2Proof.Machine
end

