-- ==== Sys2Proof/Machine/Io.lean ====
section
/-! DEFINITION. Input, output and the builtin call (44_io_builtin.md R140 to R147). -/

namespace Sys2Proof.Machine

/-- IN: the byte first, then the destination from rC and dc, then the Store; the immediate bit is not used (R140, C2). -/
def execIn (f : Fields) (s : State) : Host.Outcome State Fault Refusal :=
  perform (do
    let v ← takeInput
    let dst ← resolveDst f.rC f.dc
    store dst v) s

/-- OUT: the low byte of the operand is emitted (R142). -/
def execOut (f : Fields) (s : State) : Host.Outcome State Fault Refusal :=
  perform (do
    let v ← resolveC f
    modify (·.emit v)) s

/-- BIF: an index below `BIF_COUNT` calls its builtin; any other fails, but that `BIF_BOUND = reference` lets the index
`BIF_COUNT` past the check, to no callable (R144, R146). -/
def execBif (f : Fields) (s : State) : Host.Outcome State Fault Refusal :=
  perform (do
    let index ← resolveC f
    let cfg := (← get).cfg
    if index.toNat < cfg.bifCount then callBuiltin index
    else if cfg.bifBound = .reference ∧ index.toNat = cfg.bifCount then refuse .builtinPastTable
    else raise .bifIndex) s

end Sys2Proof.Machine
end

