-- ==== Sys2Proof/Machine/Move.lean ====
section
/-! DEFINITION. MOVE, the machine's only plain load and store (41_halt_move.md R101, R102). -/

namespace Sys2Proof.Machine

/-- MOVE: the source completely, then the destination, then the Store (R101, D3). -/
def execMove (f : Fields) (s : State) : Host.Outcome State Fault Refusal :=
  perform (do
    let v ← resolveC f
    let dst ← resolveDst f.rB f.db
    store dst v) s

end Sys2Proof.Machine
end

