-- ==== Sys2Proof/Machine/Dispatch.lean ====
section
/-! DEFINITION. The dispatch (40_engine_and_operands.md R73): one arm for each instruction. exec takes the state in which
the instruction's word was fetched, IP at that word; each meaning begins with the fetch's increment of IP. -/

namespace Sys2Proof.Machine

def exec (i : Instr) (s : State) : Host.Outcome State Fault Refusal :=
  match i with
  | .halt f => Sys2Proof.Machine.execHalt f s
  | .move f => Sys2Proof.Machine.execMove f s
  | .add f => Sys2Proof.Machine.execAdd f s
  | .sub f => Sys2Proof.Machine.execSub f s
  | .mul f => Sys2Proof.Machine.execMul f s
  | .div f => Sys2Proof.Machine.execDiv f s
  | .shr f => Sys2Proof.Machine.execShr f s
  | .shl f => Sys2Proof.Machine.execShl f s
  | .nand f => Sys2Proof.Machine.execNand f s
  | .xor f => Sys2Proof.Machine.execXor f s
  | .br f => Sys2Proof.Machine.execBr f s
  | .brz f => Sys2Proof.Machine.execBrz f s
  | .brnz f => Sys2Proof.Machine.execBrnz f s
  | .input f => Sys2Proof.Machine.execIn f s
  | .output f => Sys2Proof.Machine.execOut f s
  | .builtin f => Sys2Proof.Machine.execBif f s

end Sys2Proof.Machine
end

