-- ==== Sys2Proof/Machine/Step.lean ====
section
/-! DEFINITION. One step (40_engine_and_operands.md R70, R75), and the placing of an instruction where the next step
fetches it. -/

namespace Sys2Proof.Machine

/-- One step: fetch and decode at IP, then the instruction; in a terminal state there is no step (R70, R75). The fetch's
own increment of IP is kept by a fetch that ends the step, and made by `exec` otherwise. -/
def step (s : State) : Host.Outcome State Fault Refusal :=
  match s.run with
  | .running =>
    match fetchInstr s with
    | .ok i _ => exec i s
    | .error stop t => settle s (.error stop t)
  | r => .fault (.notRunning r)

/-- `s` with the instruction of bits `w` at IP and a Word of zeros after it (the longest instruction is two Words,
30_encoding.md R59), and RUNNING, so that the next step fetches it; a cell outside Memory takes nothing (log entry 25). -/
def State.withFetchWord (s : State) (nbits w : Nat) : State :=
  { s with
    mem := builtinWrite s.cfg.memWords
      (builtinWrite s.cfg.memWords s.mem (s.ip, tableWord nbits w)) (s.ip + 1, 0)
    run := .running }

end Sys2Proof.Machine
end

