-- ==== Sys2Proof/Safety.lean ====
section
/-! DEFINITION. The terms claims are stated in: the invariant, the decided parameter settings, what counts as a safe
step, and the operands of an instruction written out in closed form (40_engine_and_operands.md R78 to R85), to be read
beside the micro-steps of Machine/Operands.lean. In the closed forms `u` is the state after the fetch: IP one past the
instruction word. -/

namespace Sys2Proof.Machine

/-! ## Parameters, invariant, safe steps -/

/-- The parameters are in the ranges of 00_scope.md R5: 1 to 2^32 Words, `OPNUM` injective. -/
def validConfig (c : Config) : Prop := 1 ≤ c.memWords ∧ c.memWords ≤ 2 ^ 32 ∧ c.opnum.toList.Nodup

/-- The decided parameters other than `OPNUM` have the default of 00_scope.md R5. -/
def decidedConfig (c : Config) : Prop :=
  c.shiftGe32 = .zero ∧ c.inExt = .zero ∧ c.inEof = .block ∧ c.bifBound = .strict ∧
    c.strictReserved = true ∧ c.strictBounds = true

/-- The invariant of every reachable state: memory is canonical and has no cell outside `MEM_WORDS`, and the parameters
are in range. -/
def State.Inv (s : State) : Prop :=
  memoryWf s.mem = true ∧ memoryWithin s.cfg.memWords s.mem = true ∧ validConfig s.cfg

/-- A step that goes on or halts: it meets no fatal condition, no fault and no refusal. -/
def safeStep (s : State) : Prop := ∃ t, step s = .next t ∧ (t.run = .running ∨ t.run = .halted)

/-! ## Operands in closed form -/

/-- `x[i]` by number; used only where `i` names a register. -/
def State.regAt (u : State) (i : Nat) : Word := if h : i < 15 then u.reg ⟨i, h⟩ else 0

/-- The raw c operand (R78). -/
def cRaw (f : Fields) (u : State) : Word := if f.imm then u.load u.ip else u.regAt f.rC

/-- The raw c operand can be read: the immediate lies in Memory, or rC names a register. -/
def cRawOk (f : Fields) (u : State) : Bool := if f.imm then u.inMemory u.ip else decide (f.rC < 15)

/-- The c operand (R78). -/
def cValue (f : Fields) (u : State) : Word := if f.dc then u.load (cRaw f u) else cRaw f u

/-- The c operand can be resolved. -/
def cOk (f : Fields) (u : State) : Bool := cRawOk f u && (!f.dc || u.inMemory (cRaw f u))

/-- The state after the c operand is resolved: IP is past the immediate if there is one (R77, R82). -/
def afterC (f : Fields) (u : State) : State := if f.imm then u.advance else u

/-- The state in which a c operand that cannot be resolved stops: the immediate is consumed if it could be read. -/
def stopC (f : Fields) (u : State) : State := if f.imm && u.inMemory u.ip then u.advance else u

/-- The b operand (R79). -/
def bValue (f : Fields) (u : State) : Word := if f.db then u.load (u.regAt f.rB) else u.regAt f.rB

/-- The b operand can be resolved. -/
def bOk (f : Fields) (u : State) : Bool := decide (f.rB < 15) && (!f.db || u.inMemory (u.regAt f.rB))

/-- The destination of a register field and its deref bit (R85). -/
def dstLoc (i : Nat) (deref : Bool) (u : State) : Loc :=
  if deref then .mem (u.regAt i) else if h : i < 15 then .reg ⟨i, h⟩ else .reg 0

/-- The destination can be resolved (R85). -/
def dstOk (i : Nat) (deref : Bool) (u : State) : Bool := decide (i < 15) && (!deref || u.inMemory (u.regAt i))

/-- The three operands of an ALU instruction can be resolved. -/
def aluOk (f : Fields) (u : State) : Bool := dstOk f.rA f.da u && bOk f u && cOk f u

/-- The state in which an ALU instruction whose operands cannot be resolved stops (R110, fatal conditions in order). -/
def stopAlu (f : Fields) (u : State) : State := if dstOk f.rA f.da u && bOk f u then stopC f u else u

/-! ## Frames -/

/-- Every byte of memory reads as before, but those of the Word at a memory destination. -/
def sameMemoryBut (d : Loc) (s t : State) : Prop :=
  match d with
  | .reg _ => ∀ k, readByte t.mem k = readByte s.mem k
  | .mem a => ∀ k, (k < 4 * a.toNat ∨ 4 * a.toNat + 4 ≤ k) → readByte t.mem k = readByte s.mem k

/-- Every register but IP reads as before, but a register destination. -/
def sameRegsBut (d : Loc) (s t : State) : Prop := ∀ r : Reg, r ≠ regIP → d ≠ .reg r → t.reg r = s.reg r

/-- What no instruction but IN, OUT and BIF touches: the streams, the builtin counter, and the parameters. -/
def sameStreams (s t : State) : Prop := t.inp = s.inp ∧ t.out = s.out ∧ t.bifCalls = s.bifCalls ∧ t.cfg = s.cfg

/-- The run state is as before, or Illegal has been raised. -/
def sameRunOrIllegal (s t : State) : Prop := t.run = s.run ∨ t.run = .failed .illegal

/-- Whether an instruction can write IP beside the increments of 10_state.md R15 (a) and (b). -/
def mayWriteIp : Instr → Bool
  | .halt _ | .output _ => false
  | .move f => !f.db && f.rB == 10
  | .add f | .sub f | .mul f | .div f | .shr f | .shl f | .nand f | .xor f => !f.da && f.rA == 10
  | .br _ | .brz _ | .brnz _ | .builtin _ => true
  | .input f => !f.dc && f.rC == 10

/-- Whether an instruction can write FLAGS as a destination (10_state.md R13), or calls a builtin. -/
def mayReplaceFlags : Instr → Bool
  | .halt _ | .output _ | .br _ | .brz _ | .brnz _ => false
  | .move f => !f.db && f.rB == 14
  | .add f | .sub f | .mul f | .div f | .shr f | .shl f | .nand f | .xor f => !f.da && f.rA == 14
  | .input f => !f.dc && f.rC == 14
  | .builtin _ => true

end Sys2Proof.Machine
end

