-- ==== Sys2Proof/Certificates/Slice0/Obligations.lean ====
section
/-! DEFINITION. The statements for the provers, from the numbered rules of spec/. In each, `s` is the state in which an
instruction's word is fetched and `s.advance` the state after the fetch's increment of IP; the operands are the closed
forms of Safety.lean. A statement about the builtins holds for every value of `Config.builtin`. -/

open Sys2Proof Sys2Proof.Machine

/-! ## Encoding (30_encoding.md) -/

/-- R55: packing and unpacking are inverse on every combination of fields, and on every word whose reserved field is 0;
the packed word is the sum of its fields at their places. -/
def Obligations.PackAndUnpackAreInverse : Prop :=
  (∀ (op : BitVec 4) (f : Fields), f.WellFormed →
    opField (pack op f) = op ∧ unpackFields (pack op f) = f ∧ rsvField (pack op f) = 0 ∧
    (pack op f).toNat = op.toNat * 2 ^ 28 + f.imm.toNat * 2 ^ 27 + f.dc.toNat * 2 ^ 26 + f.db.toNat * 2 ^ 25 +
      f.da.toNat * 2 ^ 24 + f.rC * 2 ^ 8 + f.rB * 2 ^ 4 + f.rA) ∧
  (∀ w : Word, pack (opField w) (unpackFields w) = w ↔ rsvField w = 0)

/-- Decode of encode is the instruction, under every injective `OPNUM` (R55, R57). -/
def Obligations.DecodeOfEncodeIsTheInstruction : Prop :=
  ∀ (n : OpNum) (i : Instr), n.toList.Nodup → i.WellFormed → decode n (encode n i) = .ok i

/-- A word that decodes is the encoding of a well-formed instruction: no other word decodes to it (R55, R62). -/
def Obligations.DecodedWordIsTheEncoding : Prop :=
  ∀ (n : OpNum) (w : Word) (i : Instr), decode n w = .ok i → i.WellFormed ∧ encode n i = w

/-- R51: the opcode field is the top nibble, and all sixteen values select an instruction under an injective `OPNUM`. -/
def Obligations.EveryOpcodeValueSelectsAnInstruction : Prop :=
  (∀ w : Word, (opField w).toNat = w.toNat / 2 ^ 28) ∧
  ∀ (n : OpNum) (op : BitVec 4), n.toList.Nodup → ∃ m, n.select op = some m ∧ n.code m = op

/-- A word decodes exactly when its reserved field is 0; else it is rejected for that field (R56, R62 a and b). -/
def Obligations.WordDecodesExactlyWhenReservedIsZero : Prop :=
  ∀ (n : OpNum) (w : Word), n.toList.Nodup →
    (rsvField w = 0 → ∃ i, decode n w = .ok i ∧ i.fields = unpackFields w ∧ n.code i.mnemonic = opField w) ∧
    (rsvField w ≠ 0 → decode n w = .error (.reserved (rsvField w)))

/-- Words written out from R50 under the default `OPNUM` (PRESUMED, log entry 2), from 95_test_vectors.md V-DEC. -/
def Obligations.SampleWordsDecode : Prop :=
  decodeTableWord 32 0x29000021 =
    some (.add { imm := true, dc := false, db := false, da := true, rC := 0, rB := 2, rA := 1 }) ∧
  decodeTableWord 32 0x1E000320 =
    some (.move { imm := true, dc := true, db := true, da := false, rC := 3, rB := 2, rA := 0 }) ∧
  decodeTableWord 32 0xFC000E00 =
    some (.builtin { imm := true, dc := true, db := false, da := false, rC := 14, rB := 0, rA := 0 }) ∧
  decodeTableWord 32 0xD4000100 =
    some (.input { imm := false, dc := true, db := false, da := false, rC := 1, rB := 0, rA := 0 }) ∧
  decodeTableWord 32 0x0F000FFF =
    some (.halt { imm := true, dc := true, db := true, da := true, rC := 15, rB := 15, rA := 15 }) ∧
  decodeTableWord 32 0x00800000 = none

/-! ## The step (40_engine_and_operands.md) -/

/-- A step runs the decoded instruction: `exec` at that very state, whose meanings make the fetch's increment of IP
themselves (R71, R73, R75). -/
def Obligations.StepRunsTheDecodedInstruction : Prop :=
  ∀ (s : State) (i : Instr), s.run = .running → s.inMemory s.ip = true →
    decode s.cfg.opnum (s.load s.ip) = .ok i → step s = exec i s

/-- A fetch at or above `MEM_WORDS` is Illegal and IP is not incremented (R71, D6). -/
def Obligations.FetchOutsideMemoryIsIllegal : Prop :=
  ∀ s : State, s.run = .running → s.inMemory s.ip = false → s.cfg.strictBounds = true →
    step s = .next { s with run := .failed .illegal }

/-- A word with a reserved bit set is Illegal for every opcode alike, after the fetch's increment of IP; a machine with
`STRICT_RESERVED` false refuses it (R56, R72, D7). -/
def Obligations.ReservedBitsAreIllegal : Prop :=
  ∀ s : State, s.run = .running → s.inMemory s.ip = true → rsvField (s.load s.ip) ≠ 0 →
    step s = if s.cfg.strictReserved then .next { s.advance with run := .failed .illegal } else .refused .reservedBits

/-- R154: an opcode value that is the number of no instruction is Illegal; under an injective `OPNUM` there is none. -/
def Obligations.UnknownOpcodeIsIllegal : Prop :=
  (∀ s : State, s.run = .running → s.inMemory s.ip = true → rsvField (s.load s.ip) = 0 →
    (∀ m, s.cfg.opnum.code m ≠ opField (s.load s.ip)) → step s = .next { s.advance with run := .failed .illegal }) ∧
  (∀ (n : OpNum) (op : BitVec 4), n.toList.Nodup → ∃ m, n.code m = op)

/-- In a terminal state there is no step (R70, R162); the name of the stop is the model's (log entry 12). -/
def Obligations.TerminalStatesPerformNoStep : Prop :=
  ∀ s : State, s.run ≠ .running → ∀ t, step s ≠ .next t

/-- A Word stored where IP points is what the next step decodes (R43). -/
def Obligations.StoreIsSeenByTheNextFetch : Prop :=
  ∀ (s : State) (v : Word) (i : Instr), memoryWf s.mem = true → s.run = .running → s.inMemory s.ip = true →
    decode s.cfg.opnum v = .ok i → step (s.storeMem s.ip v) = exec i (s.storeMem s.ip v)

/-! ## Memory, registers, reset (10_state.md, 20_memory.md, 70_reset_and_hazards.md) -/

/-- A read returns the Word last written to its address, and a write changes that one cell (R35). -/
def Obligations.MemoryReadsLastWordWritten : Prop :=
  ∀ (m : Memory) (a b : Nat) (v : Word), memoryWf m = true →
    readWord (writeWord m a v) b = if b = a then v else readWord m b

/-- A register written reads as the value, ZERO, IP and FLAGS included, and no other register changes (R11, R13). -/
def Obligations.RegisterReadsLastWordWritten : Prop :=
  ∀ (s : State) (r q : Reg) (v : Word), (s.setReg r v).reg q = if q = r then v else s.reg q

/-- Every file whose length is a multiple of four has an image, which lies in Memory from address 0, each Word
big-endian (R32); a file of another length has none, which is the model's choice (log entry 31). -/
def Obligations.ImageWordsAreBigEndian : Prop :=
  (∀ file : List Byte, file.length % 4 = 0 → ∃ ws, imageWords file = some ws) ∧
  ∀ (file : List Byte) (ws : List Word), imageWords file = some ws →
    file.length = 4 * ws.length ∧
    ∀ (k : Nat) (b0 b1 b2 b3 : Byte), file[4 * k]? = some b0 → file[4 * k + 1]? = some b1 →
      file[4 * k + 2]? = some b2 → file[4 * k + 3]? = some b3 →
      readWord (loadWords [] 0 ws) k = b0 ++ b1 ++ b2 ++ b3

/-- Reset establishes its parameters: RUNNING, FLAGS 0, IP and SP from the loader, the other registers from `REG_INIT`,
the image and then the fill from address 0, the input, no output (R28, R180). It holds for every parameter; the
particular parameters of `State.reset` are the model's choice (log entries 2, 4 to 9). -/
def Obligations.ResetEstablishesItsParameters : Prop :=
  ∀ p : ResetParams,
    (State.resetWith p).run = .running ∧ (State.resetWith p).reg regFLAGS = 0 ∧
    (State.resetWith p).ip = p.ipInit ∧ (State.resetWith p).reg regSP = p.spInit ∧
    (∀ i : Fin 10, (State.resetWith p).reg ⟨i.val, by omega⟩ = p.regInit[i.val]) ∧
    (State.resetWith p).reg regRET = p.regInit[10] ∧ (State.resetWith p).reg 13 = p.regInit[11] ∧
    (∀ (k : Nat) (w : Word), (p.image ++ p.memFill)[k]? = some w → readWord (State.resetWith p).mem k = w) ∧
    (State.resetWith p).inp = p.input ∧ (State.resetWith p).out = [] ∧ (State.resetWith p).cfg = p.cfg

/-- The invariant holds after reset, for every parameter in its range and for `State.reset`. -/
def Obligations.ResetMeetsTheInvariant : Prop :=
  (∀ p : ResetParams, validConfig p.cfg → resetFits p = true → (State.resetWith p).Inv) ∧ State.reset.Inv

/-! ## Rules of the whole machine -/

/-- Every step keeps memory canonical and inside `MEM_WORDS`, and the parameters in range (R23, R36, R5). For BIF this
rests on the model's form of a builtin's effect (log entry 10). -/
def Obligations.StepKeepsTheInvariant : Prop := ∀ s t : State, s.Inv → step s = .next t → t.Inv

/-- No step changes a parameter (R5, R26, R183). -/
def Obligations.StepKeepsTheParameters : Prop := ∀ s t : State, step s = .next t → t.cfg = s.cfg

/-- Bytes once emitted are never changed, and input is only consumed from its front (R24, R25). For BIF this rests on
the model's form of a builtin's effect (log entry 10). -/
def Obligations.StreamsAreOneWay : Prop :=
  ∀ s t : State, step s = .next t → s.out <+: t.out ∧ t.inp <:+ s.inp

/-- A step that ends in a FAILED state has changed, beside the run state, only IP, by the increments of what it fetched,
and for IN has taken one byte (R152, R161). -/
def Obligations.FailingStepIsPrecise : Prop :=
  ∀ (s t : State) (k : FailKind), s.run = .running → step s = .next t → t.run = .failed k →
    (∀ r : Reg, r ≠ regIP → t.reg r = s.reg r) ∧ t.mem = s.mem ∧ t.out = s.out ∧ t.cfg = s.cfg ∧
    t.bifCalls = s.bifCalls ∧
    ((s.inMemory s.ip = false ∧ t.ip = s.ip) ∨
      (s.inMemory s.ip = true ∧ (t.ip = s.ip + 1 ∨
        ∃ i, decode s.cfg.opnum (s.load s.ip) = .ok i ∧ i.length = 2 ∧ t.ip = s.ip + 1 + 1))) ∧
    (t.inp = s.inp ∨
      ∃ f b, decode s.cfg.opnum (s.load s.ip) = .ok (.input f) ∧ s.inp = b :: t.inp)

/-- Only HALT halts, only BIF can end in FAIL, and OVERFLOW is never produced (R151, R153, R157, R184). -/
def Obligations.TerminalStatesHaveTheirCauses : Prop :=
  ∀ s t : State, s.run = .running → step s = .next t →
    t.run ≠ .failed .overflow ∧
    (t.run = .halted → ∃ f, decode s.cfg.opnum (s.load s.ip) = .ok (.halt f)) ∧
    (t.run = .failed .fail → ∃ f, decode s.cfg.opnum (s.load s.ip) = .ok (.builtin f))

/-- With the decided parameters at their defaults a running machine always has a next state: nothing is refused and
nothing faults, whatever the word at IP and the operands (R5, R75). A wait counts as a step that changes nothing (log
entry 11). -/
def Obligations.DefaultMachineAlwaysSteps : Prop :=
  ∀ s : State, decidedConfig s.cfg → s.run = .running → ∃ t, step s = .next t

/-- A field an instruction ignores has no effect: it does the same as its canonical form (R58, R61). -/
def Obligations.IgnoredFieldsHaveNoEffect : Prop := ∀ (i : Instr) (s : State), exec i s = exec i.canonical s

/-- Z changes only by a SUB with a zero result, which sets it; nothing clears it but a write of FLAGS as a destination
or a builtin (R18, C1). -/
def Obligations.ZeroFlagIsSetBySubAndNeverCleared : Prop :=
  ∀ (i : Instr) (s t : State), mayReplaceFlags i = false → exec i s = .next t → t.zeroFlag ≠ s.zeroFlag →
    t.zeroFlag = true ∧ ∃ f, i = .sub f ∧ aluOk f s.advance = true ∧ bValue f s.advance = cValue f s.advance

/-- An instruction that does not write IP leaves it past its own Words, one or two as R59 says; only an IN that waits
leaves it where it was (R14, R15, R59; log entry 11). -/
def Obligations.InstructionMovesIpByItsLength : Prop :=
  ∀ (i : Instr) (s t : State), mayWriteIp i = false → s.run = .running → exec i s = .next t →
    (∀ k, t.run ≠ .failed k) →
    t.ip = s.ip + BitVec.ofNat 32 i.length ∨ ((∃ f, i = .input f) ∧ s.inp = [] ∧ t = s)

/-! ## HALT and MOVE (41_halt_move.md) -/

/-- R100: HALT stops the machine with SUCCESS, and changes nothing else but the fetch's increment of IP. -/
def Obligations.HaltStopsWithSuccess : Prop :=
  ∀ (f : Fields) (s : State), exec (.halt f) s = .next { s.advance with run := .halted } ∧
    RunState.status .halted = some 0

/-- MOVE copies the c operand to the destination of rB and db, which is resolved after the source (R101, R102, D3). -/
def Obligations.MoveCopiesOneWord : Prop :=
  ∀ (f : Fields) (s : State), cOk f s.advance = true → dstOk f.rB f.db (afterC f s.advance) = true →
    exec (.move f) s =
      .next ((afterC f s.advance).store (dstLoc f.rB f.db (afterC f s.advance)) (cValue f s.advance))

/-- MOVE whose destination cannot be written is Illegal after its source is resolved, and stores nothing (R101, D5, D6). -/
def Obligations.MoveToNoDestinationIsIllegal : Prop :=
  ∀ (f : Fields) (s : State), s.cfg.strictBounds = true → cOk f s.advance = true →
    dstOk f.rB f.db (afterC f s.advance) = false →
    exec (.move f) s = .next { afterC f s.advance with run := .failed .illegal }

/-- MOVE's frame: beside IP it changes only its destination (R101). -/
def Obligations.MoveFrame : Prop :=
  ∀ (f : Fields) (s t : State), exec (.move f) s = .next t →
    sameRegsBut (dstLoc f.rB f.db (afterC f s.advance)) s t ∧
    sameMemoryBut (dstLoc f.rB f.db (afterC f s.advance)) s t ∧ sameStreams s t ∧ sameRunOrIllegal s t

/-! ## Arithmetic and logic (42_arithmetic_logic.md) -/

/-- R111: ADD stores the sum modulo 2^32 and touches no flag. -/
def Obligations.AddStoresTheSum : Prop :=
  ∀ (f : Fields) (s : State), aluOk f s.advance = true → ∃ r : Word,
    r.toNat = ((bValue f s.advance).toNat + (cValue f s.advance).toNat) % 2 ^ 32 ∧
    exec (.add f) s = .next ((afterC f s.advance).store (dstLoc f.rA f.da s.advance) r)

/-- R112: SUB stores the difference modulo 2^32; on a zero result, that is when the operands are equal, it then sets
bit 1 of FLAGS and no other; on another result it touches no flag. -/
def Obligations.SubStoresTheDifferenceAndSetsZero : Prop :=
  ∀ (f : Fields) (s : State), aluOk f s.advance = true → ∃ r : Word,
    (r.toNat : Int) = ((bValue f s.advance).toNat - (cValue f s.advance).toNat : Int) % 2 ^ 32 ∧
    (r = 0 ↔ bValue f s.advance = cValue f s.advance) ∧
    exec (.sub f) s = .next (
      let t := (afterC f s.advance).store (dstLoc f.rA f.da s.advance) r
      if r = 0 then t.setReg regFLAGS (t.reg regFLAGS ||| 0x2) else t)

/-- A SUB to FLAGS leaves 0x2 on a zero result and the result itself otherwise (R88, D21). -/
def Obligations.SubToFlagsStoresThenSets : Prop :=
  ∀ (f : Fields) (s : State), aluOk f s.advance = true → f.da = false → f.rA = 14 →
    ∃ t, exec (.sub f) s = .next t ∧
      t.reg regFLAGS = if bValue f s.advance = cValue f s.advance then 0x2 else bValue f s.advance - cValue f s.advance

/-- R113: MUL stores the low 32 bits of the product and touches no flag. -/
def Obligations.MulStoresTheLowProduct : Prop :=
  ∀ (f : Fields) (s : State), aluOk f s.advance = true → ∃ r : Word,
    r.toNat = ((bValue f s.advance).toNat * (cValue f s.advance).toNat) % 2 ^ 32 ∧
    exec (.mul f) s = .next ((afterC f s.advance).store (dstLoc f.rA f.da s.advance) r)

/-- R118, R155: DIV stores the floor of the quotient; when c is 0 it is Illegal, status 3, before any Store, IP having
advanced past the immediate if there is one. -/
def Obligations.DivStoresTheQuotientOrIsIllegal : Prop :=
  ∀ (f : Fields) (s : State), aluOk f s.advance = true →
    (cValue f s.advance ≠ 0 → ∃ r : Word,
      r.toNat = (bValue f s.advance).toNat / (cValue f s.advance).toNat ∧
      exec (.div f) s = .next ((afterC f s.advance).store (dstLoc f.rA f.da s.advance) r)) ∧
    (cValue f s.advance = 0 → exec (.div f) s = .next { afterC f s.advance with run := .failed .illegal }) ∧
    RunState.status (.failed .illegal) = some 3

/-- SHR stores the floor of b / 2^c; from a count of 32 on the result is that of `SHIFT_GE32` (R114, D8). -/
def Obligations.ShrShiftsRight : Prop :=
  ∀ (f : Fields) (s : State), aluOk f s.advance = true →
    ((cValue f s.advance).toNat < 32 ∨ s.cfg.shiftGe32 = .zero → ∃ r : Word,
      r.toNat = (bValue f s.advance).toNat / 2 ^ (cValue f s.advance).toNat ∧
      exec (.shr f) s = .next ((afterC f s.advance).store (dstLoc f.rA f.da s.advance) r)) ∧
    (32 ≤ (cValue f s.advance).toNat → s.cfg.shiftGe32 = .mod32 → ∃ r : Word,
      r.toNat = (bValue f s.advance).toNat / 2 ^ ((cValue f s.advance).toNat % 32) ∧
      exec (.shr f) s = .next ((afterC f s.advance).store (dstLoc f.rA f.da s.advance) r)) ∧
    (32 ≤ (cValue f s.advance).toNat → s.cfg.shiftGe32 = .refuse → exec (.shr f) s = .refused .shiftCount)

/-- SHL stores b * 2^c modulo 2^32; from a count of 32 on the result is that of `SHIFT_GE32` (R115, D8). -/
def Obligations.ShlShiftsLeft : Prop :=
  ∀ (f : Fields) (s : State), aluOk f s.advance = true →
    ((cValue f s.advance).toNat < 32 ∨ s.cfg.shiftGe32 = .zero → ∃ r : Word,
      r.toNat = ((bValue f s.advance).toNat * 2 ^ (cValue f s.advance).toNat) % 2 ^ 32 ∧
      exec (.shl f) s = .next ((afterC f s.advance).store (dstLoc f.rA f.da s.advance) r)) ∧
    (32 ≤ (cValue f s.advance).toNat → s.cfg.shiftGe32 = .mod32 → ∃ r : Word,
      r.toNat = ((bValue f s.advance).toNat * 2 ^ ((cValue f s.advance).toNat % 32)) % 2 ^ 32 ∧
      exec (.shl f) s = .next ((afterC f s.advance).store (dstLoc f.rA f.da s.advance) r)) ∧
    (32 ≤ (cValue f s.advance).toNat → s.cfg.shiftGe32 = .refuse → exec (.shl f) s = .refused .shiftCount)

/-- R116: NAND stores the complement of the bitwise and, bit by bit, and touches no flag. -/
def Obligations.NandStoresTheComplementOfAnd : Prop :=
  ∀ (f : Fields) (s : State), aluOk f s.advance = true → ∃ r : Word,
    (∀ k, k < 32 → r.getLsbD k = !((bValue f s.advance).getLsbD k && (cValue f s.advance).getLsbD k)) ∧
    exec (.nand f) s = .next ((afterC f s.advance).store (dstLoc f.rA f.da s.advance) r)

/-- R117: XOR stores the bitwise exclusive or, bit by bit, and touches no flag. -/
def Obligations.XorStoresTheExclusiveOr : Prop :=
  ∀ (f : Fields) (s : State), aluOk f s.advance = true → ∃ r : Word,
    (∀ k, k < 32 → r.getLsbD k = ((bValue f s.advance).getLsbD k != (cValue f s.advance).getLsbD k)) ∧
    exec (.xor f) s = .next ((afterC f s.advance).store (dstLoc f.rA f.da s.advance) r)

/-- An ALU instruction whose operands cannot be resolved is Illegal where the first of them fails, and stores nothing
(R110, D5, D6). -/
def Obligations.AluOperandOutOfBoundsIsIllegal : Prop :=
  ∀ (f : Fields) (s : State) (i : Instr),
    i ∈ [Instr.add f, .sub f, .mul f, .div f, .shr f, .shl f, .nand f, .xor f] →
    s.cfg.strictBounds = true → aluOk f s.advance = false →
    exec i s = .next { stopAlu f s.advance with run := .failed .illegal }

/-- The frame of the eight: beside IP they change only their destination, and SUB bit 1 of FLAGS (R110, R112). -/
def Obligations.AluFrame : Prop :=
  ∀ (f : Fields) (s t : State) (i : Instr),
    i ∈ [Instr.add f, .sub f, .mul f, .div f, .shr f, .shl f, .nand f, .xor f] → exec i s = .next t →
    (∀ r : Reg, r ≠ regIP → dstLoc f.rA f.da s.advance ≠ .reg r → (i = .sub f → r ≠ regFLAGS) → t.reg r = s.reg r) ∧
    (i = .sub f → dstLoc f.rA f.da s.advance ≠ .reg regFLAGS →
      ∀ k, k ≠ 1 → (t.reg regFLAGS).getLsbD k = (s.reg regFLAGS).getLsbD k) ∧
    sameMemoryBut (dstLoc f.rA f.da s.advance) s t ∧ sameStreams s t ∧ sameRunOrIllegal s t

/-- `ADD IP, IP, #k` jumps to the address of its own immediate plus k: b is read before the immediate is consumed
(R83 b, R88). -/
def Obligations.AddToIpIsRelativeToTheImmediate : Prop :=
  ∀ (f : Fields) (s : State), f.imm = true → f.dc = false → f.db = false → f.da = false → f.rB = 10 → f.rA = 10 →
    s.inMemory (s.ip + 1) = true →
    ∃ t, exec (.add f) s = .next t ∧ t.ip = s.ip + 1 + s.load (s.ip + 1)

/-! ## Branches (43_branches.md) -/

/-- R130: BR sets IP to its operand, always. -/
def Obligations.BrJumps : Prop :=
  ∀ (f : Fields) (s : State), cOk f s.advance = true →
    exec (.br f) s = .next ((afterC f s.advance).setIp (cValue f s.advance))

/-- BRZ jumps when bit 1 of FLAGS is clear (R131); untaken it has resolved its operand all the same and falls through
past its immediate, which is the spec's decision D4 (R134; log entry 19). -/
def Obligations.BrzJumpsWhenZeroFlagIsClear : Prop :=
  ∀ (f : Fields) (s : State), cOk f s.advance = true →
    exec (.brz f) s = .next (if (s.reg regFLAGS).getLsbD 1 then afterC f s.advance
      else (afterC f s.advance).setIp (cValue f s.advance))

/-- BRNZ jumps when bit 1 of FLAGS is set (R132); untaken it has resolved its operand all the same and falls through
past its immediate, which is the spec's decision D4 (R134; log entry 19). -/
def Obligations.BrnzJumpsWhenZeroFlagIsSet : Prop :=
  ∀ (f : Fields) (s : State), cOk f s.advance = true →
    exec (.brnz f) s = .next (if (s.reg regFLAGS).getLsbD 1 then (afterC f s.advance).setIp (cValue f s.advance)
      else afterC f s.advance)

/-- An instruction of single-operand resolution whose operand cannot be resolved is Illegal, a branch that would not be
taken among them (R78, R134, D4 to D6). -/
def Obligations.SingleOperandOutOfBoundsIsIllegal : Prop :=
  ∀ (f : Fields) (s : State) (i : Instr),
    i ∈ [Instr.move f, .br f, .brz f, .brnz f, .output f, .builtin f] →
    s.cfg.strictBounds = true → cOk f s.advance = false →
    exec i s = .next { stopC f s.advance with run := .failed .illegal }

/-- The frame of HALT, the branches and OUT: no register but IP and no byte of memory changes, FLAGS among them; only
OUT touches a stream, and only the output; only HALT and a bounds violation touch the run state (R87, R100, R133, R142). -/
def Obligations.ControlAndOutFrame : Prop :=
  ∀ (f : Fields) (s t : State) (i : Instr),
    i ∈ [Instr.halt f, .br f, .brz f, .brnz f, .output f] → exec i s = .next t →
    (∀ r : Reg, r ≠ regIP → t.reg r = s.reg r) ∧ (∀ k, readByte t.mem k = readByte s.mem k) ∧ t.inp = s.inp ∧
    t.bifCalls = s.bifCalls ∧ t.cfg = s.cfg ∧ (i ≠ .output f → t.out = s.out) ∧
    (i ≠ .halt f → sameRunOrIllegal s t)

/-! ## Input, output, builtin call (44_io_builtin.md) -/

/-- IN stores the first byte of the input, zero- or sign-extended as `IN_EXT` says, whether or not the immediate bit is
set (R140, D3, D9). -/
def Obligations.InStoresTheFirstByte : Prop :=
  ∀ (f : Fields) (s : State) (b : Byte) (rest : List Byte), s.inp = b :: rest → dstOk f.rC f.dc s.advance = true →
    ∃ v : Word,
      v.toNat = (if s.cfg.inExt = .sign ∧ 0x80 ≤ b.toNat then 0xFFFFFF00 + b.toNat else b.toNat) ∧
      exec (.input f) s = .next ({ s.advance with inp := rest }.store (dstLoc f.rC f.dc s.advance) v)

/-- IN on an empty input: under `IN_EOF = block` the step does not complete, which the model shows as a step that
changes nothing (log entry 11); under `value(w)` it stores w (R141, D10). -/
def Obligations.InOnEmptyInputWaits : Prop :=
  ∀ (f : Fields) (s : State), s.inp = [] →
    (s.cfg.inEof = .block → exec (.input f) s = .next s) ∧
    (∀ w, s.cfg.inEof = .value w → dstOk f.rC f.dc s.advance = true →
      exec (.input f) s = .next (s.advance.store (dstLoc f.rC f.dc s.advance) w))

/-- IN whose destination cannot be written is Illegal, and the byte is taken if there was one (R140, D3, D5, D6). -/
def Obligations.InToNoDestinationTakesTheByte : Prop :=
  ∀ (f : Fields) (s : State), s.cfg.strictBounds = true → dstOk f.rC f.dc s.advance = false →
    (∀ (b : Byte) (rest : List Byte), s.inp = b :: rest →
      exec (.input f) s = .next { s.advance with inp := rest, run := .failed .illegal }) ∧
    (∀ w : Word, s.inp = [] → s.cfg.inEof = .value w →
      exec (.input f) s = .next { s.advance with run := .failed .illegal })

/-- IN's frame: beside IP and the input it changes only its destination (R140). -/
def Obligations.InFrame : Prop :=
  ∀ (f : Fields) (s t : State), exec (.input f) s = .next t →
    sameRegsBut (dstLoc f.rC f.dc s.advance) s t ∧ sameMemoryBut (dstLoc f.rC f.dc s.advance) s t ∧
    t.out = s.out ∧ t.bifCalls = s.bifCalls ∧ t.cfg = s.cfg ∧ (t.inp = s.inp ∨ t.inp = s.inp.tail) ∧
    sameRunOrIllegal s t

/-- R142: OUT appends the low byte of its operand to the output, and changes nothing else but IP. -/
def Obligations.OutEmitsTheLowByte : Prop :=
  ∀ (f : Fields) (s : State), cOk f s.advance = true → ∃ b : Byte,
    b.toNat = (cValue f s.advance).toNat % 256 ∧
    exec (.output f) s = .next { afterC f s.advance with out := s.out ++ [b] }

/-- BIF with an index below `BIF_COUNT` runs that builtin on the registers (IP already past the instruction), Memory
and streams, and discards the Word it returns; a builtin that blocks leaves everything as it was (R144, R145, R147, D17;
the form of a builtin's effect is the model's, log entries 10 and 11). -/
def Obligations.BifRunsTheBuiltin : Prop :=
  ∀ (f : Fields) (s : State), cOk f s.advance = true → (cValue f s.advance).toNat < s.cfg.bifCount →
    ∃ t, exec (.builtin f) s = .next t ∧ t.run = s.run ∧ t.cfg = s.cfg ∧
      (match Config.builtin s.bifCalls (cValue f s.advance)
          { regs := (afterC f s.advance).regs, memWords := s.cfg.memWords, mem := s.mem, inp := s.inp, out := s.out } with
       | .blocks => t = s
       | .returns e =>
         t.regs = e.regs ∧ t.inp = s.inp.drop e.consumed ∧ t.out = s.out ++ e.emitted ∧
         t.mem = (e.writes.filter fun w => decide (w.1.toNat < s.cfg.memWords)).foldl
           (fun m w => writeWord m w.1.toNat w.2) s.mem)

/-- BIF with any other index is FAIL, status 1, and the builtin is not called; under `BIF_BOUND = reference` the index
`BIF_COUNT` has no meaning and is refused (R144, R146, D11). -/
def Obligations.BifIndexOutOfRangeFails : Prop :=
  ∀ (f : Fields) (s : State), cOk f s.advance = true →
    (s.cfg.bifCount < (cValue f s.advance).toNat ∨
        (cValue f s.advance).toNat = s.cfg.bifCount ∧ s.cfg.bifBound = .strict →
      exec (.builtin f) s = .next { afterC f s.advance with run := .failed .fail }) ∧
    ((cValue f s.advance).toNat = s.cfg.bifCount ∧ s.cfg.bifBound = .reference →
      exec (.builtin f) s = .refused .builtinPastTable) ∧
    RunState.status (.failed .fail) = some 1

/-- BIF's frame: a builtin can change registers, Memory and streams, but not the run state or the parameters, and a BIF
that fails calls none (R145, R153). -/
def Obligations.BifFrame : Prop :=
  ∀ (f : Fields) (s t : State), exec (.builtin f) s = .next t →
    t.cfg = s.cfg ∧
    (t.run = s.run ∨
      ((t.run = .failed .illegal ∨ t.run = .failed .fail) ∧ (∀ r : Reg, r ≠ regIP → t.reg r = s.reg r) ∧
        (∀ k, readByte t.mem k = readByte s.mem k) ∧ t.inp = s.inp ∧ t.out = s.out ∧ t.bifCalls = s.bifCalls))

/-- Without `STRICT_BOUNDS` an access out of bounds has no meaning and is refused, never given a value, at a fetch, an
operand or a destination alike, for IN with a byte to take and at the end of its input (R36, D5, D6; log entry 27). -/
def Obligations.LooseBoundsAreRefused : Prop :=
  ∀ (f : Fields) (s : State), s.cfg.strictBounds = false →
    (∀ i ∈ [Instr.add f, .sub f, .mul f, .div f, .shr f, .shl f, .nand f, .xor f],
      aluOk f s.advance = false → ∃ r, exec i s = .refused r) ∧
    (∀ i ∈ [Instr.move f, .br f, .brz f, .brnz f, .output f, .builtin f],
      cOk f s.advance = false → ∃ r, exec i s = .refused r) ∧
    (cOk f s.advance = true → dstOk f.rB f.db (afterC f s.advance) = false → ∃ r, exec (.move f) s = .refused r) ∧
    (s.inp ≠ [] → dstOk f.rC f.dc s.advance = false → ∃ r, exec (.input f) s = .refused r) ∧
    (∀ w, s.inp = [] → s.cfg.inEof = .value w → dstOk f.rC f.dc s.advance = false →
      ∃ r, exec (.input f) s = .refused r) ∧
    (s.run = .running → s.inMemory s.ip = false → step s = .refused .addressOutOfMemory)
end

