-- ==== Sys2Proof/Laws/State.lean ====
section
/-! SUPPORT. One lemma per field per update of State, and the laws of the register file. -/

namespace Sys2Proof.Machine

/-! ## setReg, setIp, advance -/

@[simp] theorem setReg_cfg (s : State) (r : Reg) (v : Word) : (s.setReg r v).cfg = s.cfg := rfl
@[simp] theorem setReg_mem (s : State) (r : Reg) (v : Word) : (s.setReg r v).mem = s.mem := rfl
@[simp] theorem setReg_inp (s : State) (r : Reg) (v : Word) : (s.setReg r v).inp = s.inp := rfl
@[simp] theorem setReg_out (s : State) (r : Reg) (v : Word) : (s.setReg r v).out = s.out := rfl
@[simp] theorem setReg_run (s : State) (r : Reg) (v : Word) : (s.setReg r v).run = s.run := rfl
@[simp] theorem setReg_bifCalls (s : State) (r : Reg) (v : Word) : (s.setReg r v).bifCalls = s.bifCalls := rfl

@[simp] theorem setIp_cfg (s : State) (t : Word) : (s.setIp t).cfg = s.cfg := rfl
@[simp] theorem setIp_mem (s : State) (t : Word) : (s.setIp t).mem = s.mem := rfl
@[simp] theorem setIp_inp (s : State) (t : Word) : (s.setIp t).inp = s.inp := rfl
@[simp] theorem setIp_out (s : State) (t : Word) : (s.setIp t).out = s.out := rfl
@[simp] theorem setIp_run (s : State) (t : Word) : (s.setIp t).run = s.run := rfl
@[simp] theorem setIp_bifCalls (s : State) (t : Word) : (s.setIp t).bifCalls = s.bifCalls := rfl

@[simp] theorem advance_cfg (s : State) : s.advance.cfg = s.cfg := rfl
@[simp] theorem advance_mem (s : State) : s.advance.mem = s.mem := rfl
@[simp] theorem advance_inp (s : State) : s.advance.inp = s.inp := rfl
@[simp] theorem advance_out (s : State) : s.advance.out = s.out := rfl
@[simp] theorem advance_run (s : State) : s.advance.run = s.run := rfl
@[simp] theorem advance_bifCalls (s : State) : s.advance.bifCalls = s.bifCalls := rfl

@[simp] theorem setReg_inMemory (s : State) (r : Reg) (v a : Word) : (s.setReg r v).inMemory a = s.inMemory a := rfl
@[simp] theorem setReg_load (s : State) (r : Reg) (v a : Word) : (s.setReg r v).load a = s.load a := rfl
@[simp] theorem advance_inMemory (s : State) (a : Word) : s.advance.inMemory a = s.inMemory a := rfl
@[simp] theorem advance_load (s : State) (a : Word) : s.advance.load a = s.load a := rfl

/-- The register written reads as the value. -/
@[simp] theorem reg_setReg_same (s : State) (r : Reg) (v : Word) : (s.setReg r v).reg r = v := by
  simp [State.reg, State.setReg, Vector.get_eq_getElem]

/-- The others read as before. -/
theorem reg_setReg_ne (s : State) {r q : Reg} (v : Word) (h : q ≠ r) : (s.setReg r v).reg q = s.reg q := by
  have h' : r.val ≠ q.val := fun e => h (Fin.ext e.symm)
  simp [State.reg, State.setReg, Vector.get_eq_getElem, h']

@[simp] theorem ip_setIp (s : State) (t : Word) : (s.setIp t).ip = t := reg_setReg_same s regIP t

theorem reg_setIp_ne (s : State) {q : Reg} (t : Word) (h : q ≠ regIP) : (s.setIp t).reg q = s.reg q :=
  reg_setReg_ne s t h

@[simp] theorem ip_advance (s : State) : s.advance.ip = s.ip + 1 := ip_setIp s _

theorem reg_advance_ne (s : State) {q : Reg} (h : q ≠ regIP) : s.advance.reg q = s.reg q := reg_setIp_ne s _ h

/-! ## storeMem -/

@[simp] theorem storeMem_cfg (s : State) (a v : Word) : (s.storeMem a v).cfg = s.cfg := rfl
@[simp] theorem storeMem_regs (s : State) (a v : Word) : (s.storeMem a v).regs = s.regs := rfl
@[simp] theorem storeMem_reg (s : State) (a v : Word) (r : Reg) : (s.storeMem a v).reg r = s.reg r := rfl
@[simp] theorem storeMem_ip (s : State) (a v : Word) : (s.storeMem a v).ip = s.ip := rfl
@[simp] theorem storeMem_mem (s : State) (a v : Word) : (s.storeMem a v).mem = writeWord s.mem a.toNat v := rfl
@[simp] theorem storeMem_inp (s : State) (a v : Word) : (s.storeMem a v).inp = s.inp := rfl
@[simp] theorem storeMem_out (s : State) (a v : Word) : (s.storeMem a v).out = s.out := rfl
@[simp] theorem storeMem_run (s : State) (a v : Word) : (s.storeMem a v).run = s.run := rfl
@[simp] theorem storeMem_bifCalls (s : State) (a v : Word) : (s.storeMem a v).bifCalls = s.bifCalls := rfl

/-! ## store, through either destination -/

@[simp] theorem store_reg (s : State) (r : Reg) (v : Word) : s.store (.reg r) v = s.setReg r v := rfl
@[simp] theorem store_mem (s : State) (a v : Word) : s.store (.mem a) v = s.storeMem a v := rfl
@[simp] theorem store_cfg (s : State) (d : Loc) (v : Word) : (s.store d v).cfg = s.cfg := by cases d <;> rfl
@[simp] theorem store_inp (s : State) (d : Loc) (v : Word) : (s.store d v).inp = s.inp := by cases d <;> rfl
@[simp] theorem store_out (s : State) (d : Loc) (v : Word) : (s.store d v).out = s.out := by cases d <;> rfl
@[simp] theorem store_run (s : State) (d : Loc) (v : Word) : (s.store d v).run = s.run := by cases d <;> rfl
@[simp] theorem store_bifCalls (s : State) (d : Loc) (v : Word) : (s.store d v).bifCalls = s.bifCalls := by
  cases d <;> rfl

/-- A register that is not the destination reads as before. -/
theorem reg_store_ne (s : State) {d : Loc} {r : Reg} (v : Word) (h : d ≠ .reg r) : (s.store d v).reg r = s.reg r := by
  cases d with
  | reg q => exact reg_setReg_ne s v (fun e => h (by rw [e]))
  | mem a => rfl

/-! ## takeFatal, emit, setZero, afterBuiltin -/

@[simp] theorem takeFatal_cfg (s : State) (c : Cause) : (s.takeFatal c).cfg = s.cfg := rfl
@[simp] theorem takeFatal_regs (s : State) (c : Cause) : (s.takeFatal c).regs = s.regs := rfl
@[simp] theorem takeFatal_reg (s : State) (c : Cause) (r : Reg) : (s.takeFatal c).reg r = s.reg r := rfl
@[simp] theorem takeFatal_ip (s : State) (c : Cause) : (s.takeFatal c).ip = s.ip := rfl
@[simp] theorem takeFatal_mem (s : State) (c : Cause) : (s.takeFatal c).mem = s.mem := rfl
@[simp] theorem takeFatal_inp (s : State) (c : Cause) : (s.takeFatal c).inp = s.inp := rfl
@[simp] theorem takeFatal_out (s : State) (c : Cause) : (s.takeFatal c).out = s.out := rfl
@[simp] theorem takeFatal_run (s : State) (c : Cause) : (s.takeFatal c).run = .failed c.kind := rfl
@[simp] theorem takeFatal_bifCalls (s : State) (c : Cause) : (s.takeFatal c).bifCalls = s.bifCalls := rfl

/-- The machine records the kind of a fatal condition only (60_exceptions.md R158). -/
theorem takeFatal_congr (s : State) {c d : Cause} (h : c.kind = d.kind) : s.takeFatal c = s.takeFatal d := by
  simp [State.takeFatal, h]

@[simp] theorem emit_cfg (s : State) (v : Word) : (s.emit v).cfg = s.cfg := rfl
@[simp] theorem emit_regs (s : State) (v : Word) : (s.emit v).regs = s.regs := rfl
@[simp] theorem emit_reg (s : State) (v : Word) (r : Reg) : (s.emit v).reg r = s.reg r := rfl
@[simp] theorem emit_ip (s : State) (v : Word) : (s.emit v).ip = s.ip := rfl
@[simp] theorem emit_mem (s : State) (v : Word) : (s.emit v).mem = s.mem := rfl
@[simp] theorem emit_inp (s : State) (v : Word) : (s.emit v).inp = s.inp := rfl
@[simp] theorem emit_out (s : State) (v : Word) : (s.emit v).out = s.out ++ [v.setWidth 8] := rfl
@[simp] theorem emit_run (s : State) (v : Word) : (s.emit v).run = s.run := rfl
@[simp] theorem emit_bifCalls (s : State) (v : Word) : (s.emit v).bifCalls = s.bifCalls := rfl

@[simp] theorem setZero_cfg (s : State) : s.setZero.cfg = s.cfg := rfl
@[simp] theorem setZero_mem (s : State) : s.setZero.mem = s.mem := rfl
@[simp] theorem setZero_inp (s : State) : s.setZero.inp = s.inp := rfl
@[simp] theorem setZero_out (s : State) : s.setZero.out = s.out := rfl
@[simp] theorem setZero_run (s : State) : s.setZero.run = s.run := rfl
@[simp] theorem setZero_bifCalls (s : State) : s.setZero.bifCalls = s.bifCalls := rfl

theorem reg_setZero_ne (s : State) {q : Reg} (h : q ≠ regFLAGS) : s.setZero.reg q = s.reg q := reg_setReg_ne s _ h

@[simp] theorem setZero_ip (s : State) : s.setZero.ip = s.ip := reg_setZero_ne s (by decide)

@[simp] theorem afterBuiltin_cfg (s : State) (e : BuiltinEffect) : (s.afterBuiltin e).cfg = s.cfg := rfl
@[simp] theorem afterBuiltin_regs (s : State) (e : BuiltinEffect) : (s.afterBuiltin e).regs = e.regs := rfl
@[simp] theorem afterBuiltin_mem (s : State) (e : BuiltinEffect) :
    (s.afterBuiltin e).mem = e.writes.foldl (builtinWrite s.cfg.memWords) s.mem := rfl
@[simp] theorem afterBuiltin_inp (s : State) (e : BuiltinEffect) : (s.afterBuiltin e).inp = s.inp.drop e.consumed := rfl
@[simp] theorem afterBuiltin_out (s : State) (e : BuiltinEffect) : (s.afterBuiltin e).out = s.out ++ e.emitted := rfl
@[simp] theorem afterBuiltin_run (s : State) (e : BuiltinEffect) : (s.afterBuiltin e).run = s.run := rfl
@[simp] theorem afterBuiltin_bifCalls (s : State) (e : BuiltinEffect) :
    (s.afterBuiltin e).bifCalls = s.bifCalls + 1 := rfl

end Sys2Proof.Machine
end

