-- ==== Sys2Proof/Laws/Operands.lean ====
section
/-! SUPPORT. One lemma per shared operation, saying once what it can do: each micro-step either goes through, to the
closed forms of Safety.lean, or stops out of bounds in a named state. Proofs cite these and do not unfold the steps. -/

namespace Sys2Proof.Machine

/-! ## How micro-steps compose -/

theorem bind_ok {α β : Type} {m : Micro α} {k : α → Micro β} {s t : State} {a : α} (h : m s = .ok a t) :
    (m >>= k) s = k a t := by simp [bind, EStateM.bind, h]

theorem bind_error {α β : Type} {m : Micro α} {k : α → Micro β} {s t : State} {e : Stop} (h : m s = .error e t) :
    (m >>= k) s = .error e t := by simp [bind, EStateM.bind, h]

@[simp] theorem pure_micro {α : Type} (a : α) (s : State) : (pure a : Micro α) s = .ok a s := rfl

@[simp] theorem modify_micro (g : State → State) (s : State) : (modify g : Micro Unit) s = .ok () (g s) := rfl

@[simp] theorem get_micro (s : State) : (get : Micro State) s = .ok s s := rfl

@[simp] theorem advanceIp_micro (s : State) : advanceIp s = .ok () s.advance := rfl

@[simp] theorem store_micro (d : Loc) (v : Word) (s : State) : store d v s = .ok () (s.store d v) := rfl

@[simp] theorem raise_micro {α : Type} (c : Cause) (s : State) : (raise c : Micro α) s = .error (.fatal c) s := rfl

@[simp] theorem refuse_micro {α : Type} (r : Refusal) (s : State) : (refuse r : Micro α) s = .error (.refused r) s := rfl

@[simp] theorem block_micro {α : Type} (s : State) : (block : Micro α) s = .error .blocked s := rfl

/-- An out-of-bounds access stops where it is: Illegal, or the refusal without `STRICT_BOUNDS`. -/
def stopsOutOfBounds {α : Type} (r : EStateM.Result Stop State α) (t : State) : Prop :=
  ∃ c q, c.kind = .illegal ∧ r = outOfBounds c q t

theorem stopsOutOfBounds_error {α : Type} {r : EStateM.Result Stop State α} {t : State} (h : stopsOutOfBounds r t) :
    ∃ e, r = .error e t ∧ ((∃ c, c.kind = .illegal ∧ e = .fatal c ∧ t.cfg.strictBounds = true) ∨
      (∃ q, e = .refused q ∧ t.cfg.strictBounds = false)) := by
  obtain ⟨c, q, hc, rfl⟩ := h
  unfold outOfBounds
  cases hs : t.cfg.strictBounds with
  | true => exact ⟨_, rfl, .inl ⟨c, hc, rfl, rfl⟩⟩
  | false => exact ⟨_, rfl, .inr ⟨q, rfl, rfl⟩⟩

/-- A stop passes through what would come after it. -/
theorem stopsOutOfBounds_bind {α β : Type} {m : Micro α} {k : α → Micro β} {s t : State}
    (h : stopsOutOfBounds (m s) t) : stopsOutOfBounds ((m >>= k) s) t := by
  obtain ⟨c, q, hc, h⟩ := h
  refine ⟨c, q, hc, ?_⟩
  unfold outOfBounds at h ⊢
  cases hs : t.cfg.strictBounds with
  | true => simp only [hs, if_true] at h ⊢; exact bind_error h
  | false => simp only [hs] at h ⊢; exact bind_error h

/-- An instruction whose micro-steps go through. -/
theorem perform_ok {body : Micro Unit} {s t : State} (h : body s.advance = .ok () t) : perform body s = .next t := by
  simp [perform, bind, EStateM.bind, h, settle]

/-- An instruction that meets a fatal condition. -/
theorem perform_fatal {body : Micro Unit} {s t : State} {c : Cause} (h : body s.advance = .error (.fatal c) t) :
    perform body s = .next (t.takeFatal c) := by
  simp [perform, bind, EStateM.bind, h, settle]

/-- An instruction that waits changes nothing. -/
theorem perform_blocked {body : Micro Unit} {s t : State} (h : body s.advance = .error .blocked t) :
    perform body s = .next s := by
  simp [perform, bind, EStateM.bind, h, settle]

theorem perform_refused {body : Micro Unit} {s t : State} {r : Refusal} (h : body s.advance = .error (.refused r) t) :
    perform body s = .refused r := by
  simp [perform, bind, EStateM.bind, h, settle]

/-- An instruction that stops out of bounds, under `STRICT_BOUNDS`, is Illegal. -/
theorem perform_outOfBounds {body : Micro Unit} {s t : State} (h : stopsOutOfBounds (body s.advance) t)
    (hs : t.cfg.strictBounds = true) : perform body s = .next { t with run := .failed .illegal } := by
  obtain ⟨e, he, ⟨c, hc, rfl, -⟩ | ⟨q, rfl, hf⟩⟩ := stopsOutOfBounds_error h
  · rw [perform_fatal he]; simp [State.takeFatal, hc]
  · simp [hs] at hf

/-- What an instruction that answers a next state has done. -/
theorem perform_next {body : Micro Unit} {s t : State} (h : perform body s = .next t) :
    body s.advance = .ok () t ∨ (∃ c u, body s.advance = .error (.fatal c) u ∧ t = u.takeFatal c) ∨
      (∃ u, body s.advance = .error .blocked u ∧ t = s) := by
  cases hb : body s.advance with
  | ok a u => cases a; rw [perform_ok hb] at h; cases h; exact .inl rfl
  | error e u =>
    cases e with
    | fatal c => rw [perform_fatal hb] at h; cases h; exact .inr (.inl ⟨c, u, rfl, rfl⟩)
    | blocked => rw [perform_blocked hb] at h; cases h; exact .inr (.inr ⟨u, rfl, rfl⟩)
    | refused r => rw [perform_refused hb] at h; cases h

/-! ## Registers and memory -/

theorem readReg_ok {i : Nat} (u : State) (h : i < 15) : readReg i u = .ok (u.regAt i) u := by
  simp [readReg, State.regAt, h]

theorem readReg_stop {i : Nat} (u : State) (h : ¬ i < 15) : stopsOutOfBounds (readReg i u) u :=
  ⟨.reg15, .registerOutOfFile, rfl, by simp [readReg, h]⟩

theorem memRead_ok {a : Word} (u : State) (h : u.inMemory a = true) : memRead a u = .ok (u.load a) u := by
  simp [memRead, h]

theorem memRead_stop {a : Word} (u : State) (h : u.inMemory a = false) : stopsOutOfBounds (memRead a u) u :=
  ⟨.oob, .addressOutOfMemory, rfl, by simp [memRead, h]⟩

/-- The fetch and the immediate fetch, when IP is inside Memory. -/
theorem fetchImm_ok (u : State) (h : u.inMemory u.ip = true) : fetchImm u = .ok (u.load u.ip) u.advance := by
  simp [fetchImm, bind, EStateM.bind, memRead, h]

/-- Outside Memory IP does not move. -/
theorem fetchImm_stop (u : State) (h : u.inMemory u.ip = false) : stopsOutOfBounds (fetchImm u) u :=
  stopsOutOfBounds_bind (t := u) (m := (get : Micro State) >>= fun s => memRead s.ip)
    (k := fun v => (do advanceIp; return v)) (by simpa [bind, EStateM.bind] using memRead_stop u h)

/-! ## The c operand -/

theorem derefIf_ok {d : Bool} {a : Word} (u : State) (h : (!d || u.inMemory a) = true) :
    derefIf d a u = .ok (if d then u.load a else a) u := by
  cases hd : d with
  | false => simp [derefIf]
  | true => simpa [derefIf] using memRead_ok u (by simpa [hd] using h)

theorem derefIf_stop {d : Bool} {a : Word} (u : State) (h : (!d || u.inMemory a) = false) :
    stopsOutOfBounds (derefIf d a u) u := by
  simp only [Bool.or_eq_false_iff, Bool.not_eq_false'] at h
  simpa [derefIf, h.1] using memRead_stop u h.2

/-- The raw c operand goes through. -/
theorem rawC_ok {f : Fields} {u : State} (h : cRawOk f u = true) : rawC f u = .ok (cRaw f u) (afterC f u) := by
  unfold rawC
  cases hi : f.imm with
  | true => simp only [cRawOk, hi, if_true] at h; simp [cRaw, afterC, hi, fetchImm_ok u h]
  | false => simp [cRawOk, hi] at h; simp [cRaw, afterC, hi, readReg_ok u h]

theorem rawC_stop {f : Fields} {u : State} (h : cRawOk f u = false) : stopsOutOfBounds (rawC f u) u := by
  unfold rawC
  cases hi : f.imm with
  | true => simp only [cRawOk, hi, if_true] at h; simpa [hi] using fetchImm_stop u h
  | false => simp [cRawOk, hi] at h; simpa [hi] using readReg_stop u (by omega)

@[simp] theorem afterC_cfg (f : Fields) (u : State) : (afterC f u).cfg = u.cfg := by unfold afterC; split <;> rfl
@[simp] theorem afterC_mem (f : Fields) (u : State) : (afterC f u).mem = u.mem := by unfold afterC; split <;> rfl
@[simp] theorem afterC_inp (f : Fields) (u : State) : (afterC f u).inp = u.inp := by unfold afterC; split <;> rfl
@[simp] theorem afterC_out (f : Fields) (u : State) : (afterC f u).out = u.out := by unfold afterC; split <;> rfl
@[simp] theorem afterC_run (f : Fields) (u : State) : (afterC f u).run = u.run := by unfold afterC; split <;> rfl
@[simp] theorem afterC_bifCalls (f : Fields) (u : State) : (afterC f u).bifCalls = u.bifCalls := by
  unfold afterC; split <;> rfl
@[simp] theorem afterC_inMemory (f : Fields) (u : State) (a : Word) : (afterC f u).inMemory a = u.inMemory a := by
  unfold afterC; split <;> rfl
@[simp] theorem afterC_load (f : Fields) (u : State) (a : Word) : (afterC f u).load a = u.load a := by
  unfold afterC; split <;> rfl

theorem reg_afterC_ne (f : Fields) (u : State) {r : Reg} (h : r ≠ regIP) : (afterC f u).reg r = u.reg r := by
  unfold afterC; split
  · exact reg_advance_ne u h
  · rfl

/-- Single-operand resolution goes through (R78). -/
theorem resolveC_ok {f : Fields} {u : State} (h : cOk f u = true) : resolveC f u = .ok (cValue f u) (afterC f u) := by
  rw [cOk, Bool.and_eq_true] at h
  rw [resolveC, bind_ok (rawC_ok h.1), derefIf_ok (afterC f u) (by simpa using h.2)]
  simp [cValue]

/-- Single-operand resolution stops, in the state `stopC`. -/
theorem resolveC_stop {f : Fields} {u : State} (h : cOk f u = false) : stopsOutOfBounds (resolveC f u) (stopC f u) := by
  unfold resolveC
  cases hr : cRawOk f u with
  | false =>
    have : stopC f u = u := by
      unfold stopC
      cases hi : f.imm with
      | false => simp
      | true => simp only [cRawOk, hi, if_true] at hr; simp [hr]
    rw [this]
    exact stopsOutOfBounds_bind (rawC_stop hr)
  | true =>
    have hs : stopC f u = afterC f u := by
      unfold stopC afterC
      cases hi : f.imm with
      | false => simp
      | true => simp only [cRawOk, hi, if_true] at hr; simp [hr]
    rw [cOk, hr, Bool.true_and] at h
    rw [hs, bind_ok (rawC_ok hr)]
    exact derefIf_stop (afterC f u) (by simpa using h)

@[simp] theorem stopC_cfg (f : Fields) (u : State) : (stopC f u).cfg = u.cfg := by unfold stopC; split <;> rfl
@[simp] theorem stopC_mem (f : Fields) (u : State) : (stopC f u).mem = u.mem := by unfold stopC; split <;> rfl
@[simp] theorem stopC_inp (f : Fields) (u : State) : (stopC f u).inp = u.inp := by unfold stopC; split <;> rfl
@[simp] theorem stopC_out (f : Fields) (u : State) : (stopC f u).out = u.out := by unfold stopC; split <;> rfl
@[simp] theorem stopC_run (f : Fields) (u : State) : (stopC f u).run = u.run := by unfold stopC; split <;> rfl
@[simp] theorem stopC_bifCalls (f : Fields) (u : State) : (stopC f u).bifCalls = u.bifCalls := by
  unfold stopC; split <;> rfl

theorem reg_stopC_ne (f : Fields) (u : State) {r : Reg} (h : r ≠ regIP) : (stopC f u).reg r = u.reg r := by
  unfold stopC; split
  · exact reg_advance_ne u h
  · rfl

/-! ## The b operand and the destination -/

theorem resolveB_ok {f : Fields} {u : State} (h : bOk f u = true) : resolveB f u = .ok (bValue f u) u := by
  rw [bOk, Bool.and_eq_true, decide_eq_true_eq] at h
  rw [resolveB, bind_ok (readReg_ok u h.1), derefIf_ok u h.2]
  rfl

theorem resolveB_stop {f : Fields} {u : State} (h : bOk f u = false) : stopsOutOfBounds (resolveB f u) u := by
  unfold resolveB
  by_cases hi : f.rB < 15
  · rw [bOk, decide_eq_true hi, Bool.true_and] at h
    rw [bind_ok (readReg_ok u hi)]
    exact derefIf_stop u h
  · exact stopsOutOfBounds_bind (readReg_stop u hi)

theorem resolveDst_ok {i : Nat} {d : Bool} {u : State} (h : dstOk i d u = true) :
    resolveDst i d u = .ok (dstLoc i d u) u := by
  simp only [dstOk, Bool.and_eq_true, decide_eq_true_eq, Bool.or_eq_true, Bool.not_eq_true'] at h
  cases hd : d with
  | false => simp [resolveDst, regLoc, dstLoc, h.1]
  | true =>
    have hm : u.inMemory (u.regAt i) = true := by simpa [hd] using h.2
    simp [resolveDst, bind_ok (readReg_ok u h.1), memLoc, hm, dstLoc]

theorem resolveDst_stop {i : Nat} {d : Bool} {u : State} (h : dstOk i d u = false) :
    stopsOutOfBounds (resolveDst i d u) u := by
  cases hd : d with
  | false =>
    have hi : ¬ i < 15 := by simpa [dstOk, hd] using h
    exact ⟨.reg15, .registerOutOfFile, rfl, by simp [resolveDst, regLoc, hi]⟩
  | true =>
    simp only [resolveDst, if_true]
    by_cases hi : i < 15
    · have hm : u.inMemory (u.regAt i) = false := by simpa [dstOk, hd, hi] using h
      rw [bind_ok (readReg_ok u hi)]
      exact ⟨.oob, .addressOutOfMemory, rfl, by simp [memLoc, hm]⟩
    · exact stopsOutOfBounds_bind (readReg_stop u hi)

/-! ## Triple-operand resolution and the ALU -/

theorem resolveTriple_ok {f : Fields} {u : State} (h : aluOk f u = true) :
    resolveTriple f u = .ok (dstLoc f.rA f.da u, bValue f u, cValue f u) (afterC f u) := by
  simp only [aluOk, Bool.and_eq_true] at h
  rw [resolveTriple, bind_ok (resolveDst_ok h.1.1), bind_ok (resolveB_ok h.1.2), bind_ok (resolveC_ok h.2), pure_micro]

theorem resolveTriple_stop {f : Fields} {u : State} (h : aluOk f u = false) :
    stopsOutOfBounds (resolveTriple f u) (stopAlu f u) := by
  unfold resolveTriple stopAlu
  cases hd : dstOk f.rA f.da u with
  | false => simpa using stopsOutOfBounds_bind (resolveDst_stop hd)
  | true =>
    rw [bind_ok (resolveDst_ok hd)]
    cases hb : bOk f u with
    | false => simpa using stopsOutOfBounds_bind (resolveB_stop hb)
    | true =>
      rw [bind_ok (resolveB_ok hb)]
      simp only [aluOk, hd, hb, Bool.and_self, Bool.true_and] at h
      exact stopsOutOfBounds_bind (resolveC_stop h)

@[simp] theorem stopAlu_cfg (f : Fields) (u : State) : (stopAlu f u).cfg = u.cfg := by
  unfold stopAlu; split <;> simp
@[simp] theorem stopAlu_mem (f : Fields) (u : State) : (stopAlu f u).mem = u.mem := by
  unfold stopAlu; split <;> simp
@[simp] theorem stopAlu_inp (f : Fields) (u : State) : (stopAlu f u).inp = u.inp := by
  unfold stopAlu; split <;> simp
@[simp] theorem stopAlu_out (f : Fields) (u : State) : (stopAlu f u).out = u.out := by
  unfold stopAlu; split <;> simp
@[simp] theorem stopAlu_run (f : Fields) (u : State) : (stopAlu f u).run = u.run := by
  unfold stopAlu; split <;> simp
@[simp] theorem stopAlu_bifCalls (f : Fields) (u : State) : (stopAlu f u).bifCalls = u.bifCalls := by
  unfold stopAlu; split <;> simp

theorem reg_stopAlu_ne (f : Fields) (u : State) {r : Reg} (h : r ≠ regIP) : (stopAlu f u).reg r = u.reg r := by
  unfold stopAlu; split
  · exact reg_stopC_ne f u h
  · rfl

/-- An ALU instruction's operands go through: what is left is the operation and the Store. -/
theorem aluInstr_eq {f : Fields} {u : State} (op : Word → Word → Micro Word) (h : aluOk f u = true) :
    aluInstr f op u =
      (op (bValue f u) (cValue f u) >>= fun r => (do store (dstLoc f.rA f.da u) r; return r : Micro Word)) (afterC f u) := by
  rw [aluInstr, bind_ok (resolveTriple_ok h)]

theorem aluInstr_stop {f : Fields} {u : State} (op : Word → Word → Micro Word) (h : aluOk f u = false) :
    stopsOutOfBounds (aluInstr f op u) (stopAlu f u) := stopsOutOfBounds_bind (resolveTriple_stop h)

/-- An ALU instruction whose operation answers `r`. -/
theorem aluInstr_ok {f : Fields} {u : State} {op : Word → Word → Micro Word} {r : Word} (h : aluOk f u = true)
    (ho : op (bValue f u) (cValue f u) (afterC f u) = .ok r (afterC f u)) :
    aluInstr f op u = .ok r ((afterC f u).store (dstLoc f.rA f.da u) r) := by
  rw [aluInstr_eq op h, bind_ok ho]; rfl

/-- An ALU instruction whose operation stops. -/
theorem aluInstr_error {f : Fields} {u : State} {op : Word → Word → Micro Word} {e : Stop} (h : aluOk f u = true)
    (ho : op (bValue f u) (cValue f u) (afterC f u) = .error e (afterC f u)) :
    aluInstr f op u = .error e (afterC f u) := by
  rw [aluInstr_eq op h, bind_error ho]

end Sys2Proof.Machine
end

