-- ==== Sys2Proof/Laws/Alu.lean ====
section
/-! SUPPORT. One lemma per operation of Machine/Flags.lean and per stream or builtin operation of Machine/Ops.lean. -/

namespace Sys2Proof.Machine

/-- SUB's flag update, as a state. -/
theorem flagOnZero_micro (r : Word) (s : State) : flagOnZero r s = .ok () (if r = 0 then s.setZero else s) := by
  unfold flagOnZero
  by_cases h : r = 0
  · rw [if_pos h, if_pos h]; rfl
  · rw [if_neg h, if_neg h]; rfl

theorem aluDivide_zero {b c : Word} (s : State) (h : c = 0) : aluDivide b c s = .error (.fatal .div0) s := by
  unfold aluDivide; rw [if_pos h]; rfl

theorem aluDivide_ok {b c : Word} (s : State) (h : c ≠ 0) : aluDivide b c s = .ok (aluDiv b c) s := by
  unfold aluDivide; rw [if_neg h]; rfl

/-- A count below 32 shifts. -/
theorem aluShift_small {shift : Word → Nat → Word} {b c : Word} (s : State) (h : c.toNat < 32) :
    aluShift shift b c s = .ok (shift b c.toNat) s := by simp [aluShift, h]

/-- From 32 on `SHIFT_GE32` decides. -/
theorem aluShift_large {shift : Word → Nat → Word} {b c : Word} (s : State) (h : 32 ≤ c.toNat) :
    aluShift shift b c s =
      match s.cfg.shiftGe32 with
      | .zero => .ok 0 s
      | .mod32 => .ok (shift b (c.toNat % 32)) s
      | .refuse => .error (.refused .shiftCount) s := by
  have : ¬ c.toNat < 32 := by omega
  simp only [aluShift, this, if_false]
  cases s.cfg.shiftGe32 <;> rfl

/-- A shift leaves the state alone, however it ends: no fatal condition, no wait. -/
theorem aluShift_cases (shift : Word → Nat → Word) (b c : Word) (s : State) :
    (∃ r, aluShift shift b c s = .ok r s) ∨
      (s.cfg.shiftGe32 = .refuse ∧ aluShift shift b c s = .error (.refused .shiftCount) s) := by
  by_cases h : c.toNat < 32
  · exact .inl ⟨_, aluShift_small s h⟩
  · rw [aluShift_large s (by omega)]
    cases s.cfg.shiftGe32 with
    | zero => exact .inl ⟨_, rfl⟩
    | mod32 => exact .inl ⟨_, rfl⟩
    | refuse => exact .inr ⟨rfl, rfl⟩

theorem aluSub_eq_sub (b c : Word) : aluSub b c = b - c := by
  apply BitVec.eq_of_toInt_eq
  rw [aluSub, BitVec.toInt_ofInt, BitVec.toInt_sub, BitVec.toInt_eq_toNat_bmod, BitVec.toInt_eq_toNat_bmod]
  simp

theorem aluAdd_eq_add (b c : Word) : aluAdd b c = b + c := by
  apply BitVec.eq_of_toNat_eq
  simp [aluAdd]

/-- A byte that waits is taken from the front of the input. -/
theorem takeInput_cons {s : State} {b : Byte} {rest : List Byte} (h : s.inp = b :: rest) :
    takeInput s = .ok (widenByte s.cfg.inExt b) { s with inp := rest } := by
  simp [takeInput, h]

/-- On an empty input `IN_EOF` decides. -/
theorem takeInput_nil {s : State} (h : s.inp = []) :
    takeInput s =
      match s.cfg.inEof with
      | .block => .error .blocked s
      | .value w => .ok w s := by
  simp only [takeInput, h]
  cases s.cfg.inEof <;> rfl

/-- A builtin blocks or returns, whatever `Config.builtin` is. -/
theorem callBuiltin_cases (index : Word) (s : State) :
    (Config.builtin s.bifCalls index s.ports = .blocks ∧ callBuiltin index s = .error .blocked s) ∨
      ∃ e, Config.builtin s.bifCalls index s.ports = .returns e ∧ callBuiltin index s = .ok () (s.afterBuiltin e) := by
  unfold callBuiltin
  cases h : Config.builtin s.bifCalls index s.ports with
  | blocks => exact .inl ⟨rfl, rfl⟩
  | returns e => exact .inr ⟨e, rfl, rfl⟩

end Sys2Proof.Machine
end

