-- ==== Sys2Proof/Laws/Exec.lean ====
section
/-! SUPPORT. What each family of instructions can do when it answers a next state: one inversion lemma per shape, from
which whole-machine rules follow without unfolding a meaning. -/

namespace Sys2Proof.Machine

/-- The next state of an instruction stopped out of bounds, if it has one. -/
theorem perform_stop_next {body : Micro Unit} {s t v : State} (h : stopsOutOfBounds (body s.advance) v)
    (hn : perform body s = .next t) : t = { v with run := .failed .illegal } := by
  obtain ⟨e, he, ⟨c, hc, rfl, -⟩ | ⟨q, rfl, -⟩⟩ := stopsOutOfBounds_error h
  · rw [perform_fatal he] at hn; cases hn; simp [State.takeFatal, hc]
  · rw [perform_refused he] at hn; cases hn

/-- What an ALU operation may do: answer without touching the state, divide by zero, or refuse. -/
def pureOp (op : Word → Word → Micro Word) : Prop :=
  ∀ b c u, (∃ r, op b c u = .ok r u) ∨ op b c u = .error (.fatal .div0) u ∨ ∃ q, op b c u = .error (.refused q) u

theorem pureOp_pure (g : Word → Word → Word) : pureOp (fun b c => pure (g b c)) := fun _ _ _ => .inl ⟨_, rfl⟩

theorem pureOp_divide : pureOp aluDivide := fun b c u => by
  by_cases h : c = 0
  · exact .inr (.inl (aluDivide_zero u h))
  · exact .inl ⟨_, aluDivide_ok u h⟩

theorem pureOp_shift (shift : Word → Nat → Word) : pureOp (aluShift shift) := fun b c u =>
  (aluShift_cases shift b c u).imp id fun h => .inr ⟨_, h.2⟩

/-- The seven ALU instructions that set no flag: each stores, or divides by zero, or stops at its operands. -/
theorem aluPlain_next {f : Fields} {s t : State} {op : Word → Word → Micro Word} (hop : pureOp op)
    (h : perform (do let _ ← aluInstr f op) s = .next t) :
    (aluOk f s.advance = true ∧ ∃ r, t = (afterC f s.advance).store (dstLoc f.rA f.da s.advance) r) ∨
      (aluOk f s.advance = true ∧ t = { afterC f s.advance with run := .failed .illegal }) ∨
      (aluOk f s.advance = false ∧ t = { stopAlu f s.advance with run := .failed .illegal }) := by
  cases ha : aluOk f s.advance with
  | false => exact .inr (.inr ⟨rfl, perform_stop_next (stopsOutOfBounds_bind (aluInstr_stop op ha)) h⟩)
  | true =>
    rcases hop (bValue f s.advance) (cValue f s.advance) (afterC f s.advance) with ⟨r, hr⟩ | hd | ⟨q, hq⟩
    · rw [perform_ok ((bind_ok (aluInstr_ok ha hr)).trans (pure_micro _ _))] at h
      cases h
      exact .inl ⟨rfl, r, rfl⟩
    · rw [perform_fatal (bind_error (aluInstr_error ha hd))] at h
      cases h
      exact .inr (.inl ⟨rfl, rfl⟩)
    · rw [perform_refused (bind_error (aluInstr_error ha hq))] at h
      cases h

/-- SUB. -/
theorem execSub_next {f : Fields} {s t : State} (h : execSub f s = .next t) :
    (aluOk f s.advance = true ∧ ∃ r, r = bValue f s.advance - cValue f s.advance ∧
        t = if r = 0 then ((afterC f s.advance).store (dstLoc f.rA f.da s.advance) r).setZero
          else (afterC f s.advance).store (dstLoc f.rA f.da s.advance) r) ∨
      (aluOk f s.advance = false ∧ t = { stopAlu f s.advance with run := .failed .illegal }) := by
  cases ha : aluOk f s.advance with
  | false => exact .inr ⟨rfl, perform_stop_next (stopsOutOfBounds_bind (aluInstr_stop _ ha)) h⟩
  | true =>
    refine .inl ⟨rfl, _, rfl, ?_⟩
    unfold execSub at h
    rw [perform_ok ((bind_ok (aluInstr_ok ha rfl)).trans (flagOnZero_micro _ _)), aluSub_eq_sub] at h
    cases h
    rfl

/-- MOVE. -/
theorem execMove_next {f : Fields} {s t : State} (h : execMove f s = .next t) :
    (cOk f s.advance = true ∧ dstOk f.rB f.db (afterC f s.advance) = true ∧
        t = (afterC f s.advance).store (dstLoc f.rB f.db (afterC f s.advance)) (cValue f s.advance)) ∨
      (cOk f s.advance = true ∧ t = { afterC f s.advance with run := .failed .illegal }) ∨
      (cOk f s.advance = false ∧ t = { stopC f s.advance with run := .failed .illegal }) := by
  unfold execMove at h
  cases hc : cOk f s.advance with
  | false => exact .inr (.inr ⟨rfl, perform_stop_next (stopsOutOfBounds_bind (resolveC_stop hc)) h⟩)
  | true =>
    cases hd : dstOk f.rB f.db (afterC f s.advance) with
    | false =>
      refine .inr (.inl ⟨rfl, perform_stop_next ?_ h⟩)
      rw [bind_ok (resolveC_ok hc)]
      exact stopsOutOfBounds_bind (resolveDst_stop hd)
    | true =>
      rw [perform_ok ((bind_ok (resolveC_ok hc)).trans ((bind_ok (resolveDst_ok hd)).trans (store_micro _ _ _)))] at h
      cases h
      exact .inl ⟨rfl, rfl, rfl⟩

/-- The branches. -/
theorem branch_next {f : Fields} {s t : State} {taken : State → Bool} (h : perform (branchWhen f taken) s = .next t) :
    (cOk f s.advance = true ∧
        t = if taken (afterC f s.advance) then (afterC f s.advance).setIp (cValue f s.advance) else afterC f s.advance) ∨
      (cOk f s.advance = false ∧ t = { stopC f s.advance with run := .failed .illegal }) := by
  cases hc : cOk f s.advance with
  | false => exact .inr ⟨rfl, perform_stop_next (stopsOutOfBounds_bind (resolveC_stop hc)) h⟩
  | true =>
    refine .inl ⟨rfl, ?_⟩
    have hb : branchWhen f taken s.advance = .ok () (if taken (afterC f s.advance) then
        (afterC f s.advance).setIp (cValue f s.advance) else afterC f s.advance) := by
      rw [branchWhen, bind_ok (resolveC_ok hc), bind_ok (get_micro _)]
      cases taken (afterC f s.advance) <;> rfl
    rw [perform_ok hb] at h
    cases h
    rfl

/-- IN. -/
theorem execIn_next {f : Fields} {s t : State} (h : execIn f s = .next t) :
    (∃ b rest, s.inp = b :: rest ∧ dstOk f.rC f.dc s.advance = true ∧
        t = { s.advance with inp := rest }.store (dstLoc f.rC f.dc s.advance) (widenByte s.cfg.inExt b)) ∨
      (∃ b rest, s.inp = b :: rest ∧ t = { s.advance with inp := rest, run := .failed .illegal }) ∨
      (s.inp = [] ∧ s.cfg.inEof = .block ∧ t = s) ∨
      (∃ w, s.inp = [] ∧ dstOk f.rC f.dc s.advance = true ∧ t = s.advance.store (dstLoc f.rC f.dc s.advance) w) ∨
      (s.inp = [] ∧ t = { s.advance with run := .failed .illegal }) := by
  unfold execIn at h
  cases hi : s.inp with
  | cons b rest =>
    have ht := takeInput_cons (s := s.advance) hi
    have hdd : dstOk f.rC f.dc { s.advance with inp := rest } = dstOk f.rC f.dc s.advance := rfl
    cases hd : dstOk f.rC f.dc s.advance with
    | false =>
      refine .inr (.inl ⟨b, rest, rfl, perform_stop_next (v := { s.advance with inp := rest }) ?_ h⟩)
      rw [bind_ok ht]
      exact stopsOutOfBounds_bind (resolveDst_stop (hdd.trans hd))
    | true =>
      rw [perform_ok ((bind_ok ht).trans ((bind_ok (resolveDst_ok (hdd.trans hd))).trans (store_micro _ _ _)))] at h
      cases h
      exact .inl ⟨b, rest, rfl, rfl, rfl⟩
  | nil =>
    have ht := takeInput_nil (s := s.advance) hi
    cases he : s.cfg.inEof with
    | block =>
      rw [advance_cfg, he] at ht
      rw [perform_blocked (bind_error ht)] at h
      cases h
      exact .inr (.inr (.inl ⟨rfl, rfl, rfl⟩))
    | value w =>
      rw [advance_cfg, he] at ht
      cases hd : dstOk f.rC f.dc s.advance with
      | false =>
        refine .inr (.inr (.inr (.inr ⟨rfl, perform_stop_next ?_ h⟩)))
        rw [bind_ok ht]
        exact stopsOutOfBounds_bind (resolveDst_stop hd)
      | true =>
        rw [perform_ok ((bind_ok ht).trans ((bind_ok (resolveDst_ok hd)).trans (store_micro _ _ _)))] at h
        cases h
        exact .inr (.inr (.inr (.inl ⟨w, rfl, rfl, rfl⟩)))

/-- OUT. -/
theorem execOut_next {f : Fields} {s t : State} (h : execOut f s = .next t) :
    (cOk f s.advance = true ∧ t = (afterC f s.advance).emit (cValue f s.advance)) ∨
      (cOk f s.advance = false ∧ t = { stopC f s.advance with run := .failed .illegal }) := by
  unfold execOut at h
  cases hc : cOk f s.advance with
  | false => exact .inr ⟨rfl, perform_stop_next (stopsOutOfBounds_bind (resolveC_stop hc)) h⟩
  | true =>
    rw [perform_ok ((bind_ok (resolveC_ok hc)).trans (modify_micro _ _))] at h
    cases h
    exact .inl ⟨rfl, rfl⟩

/-- BIF's steps once its operand is resolved. -/
theorem bifBody_ok {f : Fields} {u : State} (hc : cOk f u = true) :
    (do
      let index ← resolveC f
      let cfg := (← get).cfg
      if index.toNat < cfg.bifCount then callBuiltin index
      else if cfg.bifBound = .reference ∧ index.toNat = cfg.bifCount then refuse .builtinPastTable
      else raise .bifIndex : Micro Unit) u =
      (if (cValue f u).toNat < u.cfg.bifCount then callBuiltin (cValue f u)
      else if u.cfg.bifBound = .reference ∧ (cValue f u).toNat = u.cfg.bifCount then refuse .builtinPastTable
      else raise .bifIndex : Micro Unit) (afterC f u) := by
  rw [bind_ok (resolveC_ok hc), bind_ok (get_micro _), afterC_cfg]

/-- BIF. -/
theorem execBif_next {f : Fields} {s t : State} (h : execBif f s = .next t) :
    (cOk f s.advance = true ∧ ((∃ e, t = (afterC f s.advance).afterBuiltin e) ∨ t = s)) ∨
      (cOk f s.advance = true ∧ t = { afterC f s.advance with run := .failed .fail }) ∨
      (cOk f s.advance = false ∧ t = { stopC f s.advance with run := .failed .illegal }) := by
  unfold execBif at h
  cases hc : cOk f s.advance with
  | false => exact .inr (.inr ⟨rfl, perform_stop_next (stopsOutOfBounds_bind (resolveC_stop hc)) h⟩)
  | true =>
    have hb := bifBody_ok hc
    split at hb
    · refine .inl ⟨rfl, ?_⟩
      rcases callBuiltin_cases (cValue f s.advance) (afterC f s.advance) with ⟨-, hr⟩ | ⟨e, -, hr⟩
      · rw [perform_blocked (hb.trans hr)] at h; cases h; exact .inr rfl
      · rw [perform_ok (hb.trans hr)] at h; cases h; exact .inl ⟨e, rfl⟩
    · split at hb
      · rw [perform_refused (hb.trans (refuse_micro _ _))] at h; cases h
      · rw [perform_fatal (hb.trans (raise_micro _ _))] at h; cases h; exact .inr (.inl ⟨rfl, rfl⟩)

end Sys2Proof.Machine
end

