-- ==== Sys2Proof/Laws/Memory.lean ====
section
/-! SUPPORT. The laws of memory: what a byte write leaves alone, that every operation keeps the canonical form and the
bounds, and what a byte reads as after it is written. -/

namespace Sys2Proof.Machine

/-! ## Bytes -/

/-- A write leaves every other byte alone, in any list. -/
theorem readByte_writeByte_ne (m : Memory) {a k : Nat} (v : Byte) (h : k ≠ a) :
    readByte (writeByte m a v) k = readByte m k := by
  induction m with
  | nil =>
    simp only [writeByte]
    split
    · rfl
    · simp [readByte, Ne.symm h]
  | cons c m ih =>
    obtain ⟨j, b⟩ := c
    simp only [writeByte]
    split
    · split
      · rfl
      · simp [readByte, Ne.symm h]
    · split
      · next e =>
        subst e
        split <;> simp [readByte, Ne.symm h]
      · simp [readByte, ih]

/-- Below the first address nothing is listed. -/
theorem readByte_of_canonicalFrom {lo a : Nat} (m : Memory) (h : canonicalFrom lo m = true) (ha : a < lo) :
    readByte m a = unlistedByte := by
  induction m generalizing lo with
  | nil => rfl
  | cons c m ih =>
    obtain ⟨j, b⟩ := c
    simp only [canonicalFrom, Bool.and_eq_true, decide_eq_true_eq] at h
    have hj : j ≠ a := by omega
    simp only [readByte, hj, if_false]
    exact ih h.2 (by omega)

/-- The byte written reads back. -/
theorem readByte_writeByte_same {lo : Nat} (m : Memory) (a : Nat) (v : Byte) (h : canonicalFrom lo m = true) :
    readByte (writeByte m a v) a = v := by
  induction m generalizing lo with
  | nil =>
    simp only [writeByte]
    split
    · next e => simp [readByte, e]
    · simp [readByte]
  | cons c m ih =>
    obtain ⟨j, b⟩ := c
    simp only [canonicalFrom, Bool.and_eq_true, decide_eq_true_eq] at h
    simp only [writeByte]
    split
    · next hlt =>
      split
      · next e =>
        have hj : j ≠ a := by omega
        simp only [readByte, hj, if_false]
        rw [readByte_of_canonicalFrom m h.2 (by omega), e]
      · simp [readByte]
    · split
      · next e =>
        subst e
        split
        · next e => rw [readByte_of_canonicalFrom m h.2 (by omega), e]
        · simp [readByte]
      · next hne =>
        have hj : j ≠ a := fun e => hne e.symm
        simp only [readByte, hj, if_false]
        exact ih h.2

/-- A lower start keeps the form. -/
theorem canonicalFrom_mono {lo hi : Nat} (m : Memory) (hle : lo ≤ hi) (h : canonicalFrom hi m = true) :
    canonicalFrom lo m = true := by
  cases m with
  | nil => rfl
  | cons c m =>
    obtain ⟨j, b⟩ := c
    simp only [canonicalFrom, Bool.and_eq_true, decide_eq_true_eq] at h ⊢
    exact ⟨⟨by omega, h.1.2⟩, h.2⟩

/-- A write keeps the canonical form. -/
theorem canonicalFrom_writeByte {lo : Nat} (m : Memory) {a : Nat} (v : Byte) (h : canonicalFrom lo m = true)
    (ha : lo ≤ a) : canonicalFrom lo (writeByte m a v) = true := by
  induction m generalizing lo with
  | nil =>
    simp only [writeByte]
    split
    · rfl
    · next e => simp [canonicalFrom, ha, e]
  | cons c m ih =>
    obtain ⟨j, b⟩ := c
    have h0 := h
    simp only [canonicalFrom, Bool.and_eq_true, decide_eq_true_eq] at h
    simp only [writeByte]
    split
    · next hlt =>
      split
      · exact h0
      · next e =>
        simp only [canonicalFrom, Bool.and_eq_true, decide_eq_true_eq]
        exact ⟨⟨ha, e⟩, ⟨by omega, h.1.2⟩, h.2⟩
    · split
      · next hn e =>
        subst e
        split
        · exact canonicalFrom_mono m (by omega) h.2
        · next e =>
          simp only [canonicalFrom, Bool.and_eq_true, decide_eq_true_eq]
          exact ⟨⟨ha, e⟩, h.2⟩
      · next hn hne =>
        simp only [canonicalFrom, Bool.and_eq_true, decide_eq_true_eq]
        exact ⟨h.1, ih h.2 (by omega)⟩

theorem memoryWf_writeByte (m : Memory) (a : Nat) (v : Byte) (h : memoryWf m = true) :
    memoryWf (writeByte m a v) = true := canonicalFrom_writeByte m v h (Nat.zero_le a)

/-- A write lists nothing new but the cell written. -/
theorem mem_writeByte {m : Memory} {a : Nat} {v : Byte} {c : Host.Cell} (h : c ∈ writeByte m a v) :
    c ∈ m ∨ c = (a, v) := by
  induction m with
  | nil =>
    simp only [writeByte] at h
    split at h
    · exact .inl h
    · exact .inr (List.mem_singleton.mp h)
  | cons d m ih =>
    obtain ⟨j, b⟩ := d
    simp only [writeByte] at h
    split at h
    · split at h
      · exact .inl h
      · exact (List.mem_cons.mp h).symm
    · split at h
      · split at h
        · exact .inl (List.mem_cons_of_mem _ h)
        · exact (List.mem_cons.mp h).symm.imp_left (List.mem_cons_of_mem _)
      · rcases List.mem_cons.mp h with e | h
        · exact .inl (e ▸ List.mem_cons_self)
        · exact (ih h).imp_left (List.mem_cons_of_mem _)

/-- A write inside the bounds keeps the bounds. -/
theorem memoryWithin_writeByte {words : Nat} (m : Memory) {a : Nat} (v : Byte) (h : memoryWithin words m = true)
    (ha : a < 4 * words) : memoryWithin words (writeByte m a v) = true := by
  simp only [memoryWithin, List.all_eq_true, decide_eq_true_eq] at h ⊢
  intro c hc
  rcases mem_writeByte hc with hc | rfl
  · exact h c hc
  · exact ha

/-! ## Words -/

/-- The Word of its own bytes. -/
theorem wordOfBytes_byteOfWord (w : Word) :
    wordOfBytes (byteOfWord w 0) (byteOfWord w 1) (byteOfWord w 2) (byteOfWord w 3) = w := by
  apply BitVec.eq_of_getLsbD_eq
  intro i hi
  simp only [wordOfBytes, byteOfWord, BitVec.getLsbD_append, BitVec.getLsbD_extractLsb']
  split
  · next h => simp [h]
  · split
    · next h1 h2 => simp [h2]; congr 1; omega
    · split
      · next h1 h2 h3 => simp [h3]; congr 1; omega
      · next h1 h2 h3 =>
        have : i - 8 - 8 - 8 < 8 := by omega
        simp [this]; congr 1; omega

/-- A Word write leaves every byte outside the Word alone, in any list. -/
theorem readByte_writeWord_ne (m : Memory) {a k : Nat} (v : Word) (h : k < 4 * a ∨ 4 * a + 4 ≤ k) :
    readByte (writeWord m a v) k = readByte m k := by
  unfold writeWord
  rw [readByte_writeByte_ne _ _ (by omega), readByte_writeByte_ne _ _ (by omega),
    readByte_writeByte_ne _ _ (by omega), readByte_writeByte_ne _ _ (by omega)]

/-- A Word write leaves every other Word alone, in any list. -/
theorem readWord_writeWord_ne (m : Memory) {a b : Nat} (v : Word) (h : b ≠ a) :
    readWord (writeWord m a v) b = readWord m b := by
  have hb : ∀ j, j < 4 → readByte (writeWord m a v) (4 * b + j) = readByte m (4 * b + j) :=
    fun j hj => readByte_writeWord_ne m v (by omega)
  have h0 := hb 0 (by omega)
  simp only [Nat.add_zero] at h0
  simp only [readWord, h0, hb 1 (by omega), hb 2 (by omega), hb 3 (by omega)]

theorem memoryWf_writeWord (m : Memory) (a : Nat) (v : Word) (h : memoryWf m = true) :
    memoryWf (writeWord m a v) = true :=
  memoryWf_writeByte _ _ _ (memoryWf_writeByte _ _ _ (memoryWf_writeByte _ _ _ (memoryWf_writeByte _ _ _ h)))

/-- Each byte of a Word just written reads back. -/
theorem readByte_writeWord_same (m : Memory) (a : Nat) (v : Word) (h : memoryWf m = true) (j : Nat) (hj : j < 4) :
    readByte (writeWord m a v) (4 * a + j) = byteOfWord v j := by
  have h0 := memoryWf_writeByte m (4 * a) (byteOfWord v 0) h
  have h1 := memoryWf_writeByte _ (4 * a + 1) (byteOfWord v 1) h0
  have h2 := memoryWf_writeByte _ (4 * a + 2) (byteOfWord v 2) h1
  unfold writeWord
  match j, hj with
  | 0, _ =>
    rw [readByte_writeByte_ne _ _ (by omega), readByte_writeByte_ne _ _ (by omega),
      readByte_writeByte_ne _ _ (by omega)]
    exact readByte_writeByte_same (lo := 0) _ _ _ h
  | 1, _ =>
    rw [readByte_writeByte_ne _ _ (by omega), readByte_writeByte_ne _ _ (by omega)]
    exact readByte_writeByte_same (lo := 0) _ _ _ h0
  | 2, _ =>
    rw [readByte_writeByte_ne _ _ (by omega)]
    exact readByte_writeByte_same (lo := 0) _ _ _ h1
  | 3, _ => exact readByte_writeByte_same (lo := 0) _ _ _ h2

theorem memoryWithin_writeWord {words : Nat} (m : Memory) {a : Nat} (v : Word) (h : memoryWithin words m = true)
    (ha : a < words) : memoryWithin words (writeWord m a v) = true := by
  unfold writeWord
  exact memoryWithin_writeByte _ _ (memoryWithin_writeByte _ _ (memoryWithin_writeByte _ _
    (memoryWithin_writeByte _ _ h (by omega)) (by omega)) (by omega)) (by omega)

theorem memoryWf_loadWords (m : Memory) (a : Nat) (ws : List Word) (h : memoryWf m = true) :
    memoryWf (loadWords m a ws) = true := by
  induction ws generalizing m a with
  | nil => exact h
  | cons w ws ih => exact ih _ _ (memoryWf_writeWord m a w h)

/-- A load leaves the Words below its start alone. -/
theorem readWord_loadWords_below (m : Memory) {a k : Nat} (ws : List Word) (h : k < a) :
    readWord (loadWords m a ws) k = readWord m k := by
  induction ws generalizing m a with
  | nil => rfl
  | cons w ws ih =>
    simp only [loadWords]
    rw [ih _ (by omega), readWord_writeWord_ne _ _ (by omega)]

theorem memoryWithin_loadWords {words : Nat} (m : Memory) {a : Nat} (ws : List Word)
    (h : memoryWithin words m = true) (ha : a + ws.length ≤ words) : memoryWithin words (loadWords m a ws) = true := by
  induction ws generalizing m a with
  | nil => exact h
  | cons w ws ih =>
    simp only [List.length_cons] at ha
    exact ih _ (memoryWithin_writeWord m w h (by omega)) (by omega)

/-- Memory after reset is canonical. -/
theorem memoryWf_resetMemory (p : ResetParams) : memoryWf (resetMemory p) = true := memoryWf_loadWords [] 0 _ rfl

/-! ## Builtin writes -/

theorem memoryWf_builtinWrite {words : Nat} (m : Memory) (w : Word × Word) (h : memoryWf m = true) :
    memoryWf (builtinWrite words m w) = true := by
  unfold builtinWrite; split
  · exact memoryWf_writeWord _ _ _ h
  · exact h

theorem memoryWithin_builtinWrite {words : Nat} (m : Memory) (w : Word × Word) (h : memoryWithin words m = true) :
    memoryWithin words (builtinWrite words m w) = true := by
  unfold builtinWrite; split
  · next hl => exact memoryWithin_writeWord _ _ h hl
  · exact h

/-- Whatever a builtin writes, memory stays canonical. -/
theorem memoryWf_builtinWrites {words : Nat} (m : Memory) (ws : List (Word × Word)) (h : memoryWf m = true) :
    memoryWf (ws.foldl (builtinWrite words) m) = true := by
  induction ws generalizing m with
  | nil => exact h
  | cons w ws ih => exact ih _ (memoryWf_builtinWrite m w h)

/-- Whatever a builtin writes, memory stays inside its bounds. -/
theorem memoryWithin_builtinWrites {words : Nat} (m : Memory) (ws : List (Word × Word))
    (h : memoryWithin words m = true) : memoryWithin words (ws.foldl (builtinWrite words) m) = true := by
  induction ws generalizing m with
  | nil => exact h
  | cons w ws ih => exact ih _ (memoryWithin_builtinWrite m w h)

end Sys2Proof.Machine
end

