-- ==== Sys2Proof/Laws/PerInstr.lean ====
section
/-! SUPPORT. The statement made of every instruction: taking the canonical form, in which each ignored field is 0
(30_encoding.md R58, R61, R65), loses nothing that counts. -/

namespace Sys2Proof.Laws.Canonical

/-- The canonical form is well formed when the instruction is, is its own canonical form, and keeps the name and the
length (R59, R65). -/
def Statement (i : Instr) : Prop :=
  (i.WellFormed → i.canonical.WellFormed) ∧ i.canonical.canonical = i.canonical ∧
    i.canonical.mnemonic = i.mnemonic ∧ i.canonical.length = i.length

/-- An ignored register field at 0 fits. -/
theorem zero_fits : 0 < 16 := by decide

/-- The c operand's own canonical form. -/
theorem canonC_wellFormed {f : Fields} (h : f.WellFormed) : f.canonC.WellFormed := by
  unfold Fields.canonC
  split
  · exact ⟨zero_fits, h.2⟩
  · exact h

@[simp] theorem canonC_canonC (f : Fields) : f.canonC.canonC = f.canonC := by
  unfold Fields.canonC
  cases h : f.imm <;> simp [h]

@[simp] theorem canonC_imm (f : Fields) : f.canonC.imm = f.imm := by
  unfold Fields.canonC
  split <;> rfl

/-- The canonical form of the instructions that use all three operands. -/
theorem triple {i : Fields → Instr} (hc : ∀ f, (i f).canonical = i f.canonC) (hf : ∀ f, (i f).fields = f)
    (hm : ∀ f g, (i f).mnemonic = (i g).mnemonic) (f : Fields) : Statement (i f) := by
  refine ⟨fun h => ?_, by rw [hc, hc, canonC_canonC], by rw [hc]; exact hm _ _, ?_⟩
  · rw [Instr.WellFormed, hf] at h
    rw [hc, Instr.WellFormed, hf]
    exact canonC_wellFormed h
  · rw [hc, Instr.length, Instr.length, hf, hf, canonC_imm, hm f.canonC f]

/-- The fields of the instructions that use the c operand alone. -/
def onlyC (f : Fields) : Fields := { f.canonC with db := false, da := false, rB := 0, rA := 0 }

/-- The canonical form of the instructions that use the c operand alone. -/
theorem single {i : Fields → Instr} (hc : ∀ f, (i f).canonical = i (onlyC f)) (hf : ∀ f, (i f).fields = f)
    (hm : ∀ f g, (i f).mnemonic = (i g).mnemonic) (f : Fields) : Statement (i f) := by
  refine ⟨fun h => ?_, ?_, by rw [hc]; exact hm _ _, ?_⟩
  · rw [Instr.WellFormed, hf] at h
    rw [hc, Instr.WellFormed, hf]
    exact ⟨(canonC_wellFormed h).1, zero_fits, zero_fits⟩
  · rw [hc, hc]
    congr 1
    unfold onlyC Fields.canonC
    cases h : f.imm <;> simp [h]
  · rw [hc, Instr.length, Instr.length, hf, hf, hm (onlyC f) f]
    exact congrArg (fun b => if b && _ then 2 else 1) (canonC_imm f)

theorem halt (f : Fields) : Statement (.halt f) :=
  ⟨fun _ => ⟨zero_fits, zero_fits, zero_fits⟩, rfl, rfl, by simp [Instr.canonical, Instr.length, Instr.mnemonic, Mnemonic.takesImmediate]⟩

theorem move (f : Fields) : Statement (.move f) := by
  refine ⟨fun h => ?_, ?_, rfl, ?_⟩
  · have := canonC_wellFormed (f := f) h
    exact ⟨this.1, this.2.1, zero_fits⟩
  · unfold Instr.canonical Fields.canonC
    cases h : f.imm <;> simp [h]
  · exact congrArg (fun b => if b && _ then 2 else 1) (canonC_imm f)

theorem add (f : Fields) : Statement (.add f) := triple (fun _ => rfl) (fun _ => rfl) (fun _ _ => rfl) f
theorem sub (f : Fields) : Statement (.sub f) := triple (fun _ => rfl) (fun _ => rfl) (fun _ _ => rfl) f
theorem mul (f : Fields) : Statement (.mul f) := triple (fun _ => rfl) (fun _ => rfl) (fun _ _ => rfl) f
theorem div (f : Fields) : Statement (.div f) := triple (fun _ => rfl) (fun _ => rfl) (fun _ _ => rfl) f
theorem shr (f : Fields) : Statement (.shr f) := triple (fun _ => rfl) (fun _ => rfl) (fun _ _ => rfl) f
theorem shl (f : Fields) : Statement (.shl f) := triple (fun _ => rfl) (fun _ => rfl) (fun _ _ => rfl) f
theorem nand (f : Fields) : Statement (.nand f) := triple (fun _ => rfl) (fun _ => rfl) (fun _ _ => rfl) f
theorem xor (f : Fields) : Statement (.xor f) := triple (fun _ => rfl) (fun _ => rfl) (fun _ _ => rfl) f
theorem br (f : Fields) : Statement (.br f) := single (fun _ => rfl) (fun _ => rfl) (fun _ _ => rfl) f
theorem brz (f : Fields) : Statement (.brz f) := single (fun _ => rfl) (fun _ => rfl) (fun _ _ => rfl) f
theorem brnz (f : Fields) : Statement (.brnz f) := single (fun _ => rfl) (fun _ => rfl) (fun _ _ => rfl) f

theorem input (f : Fields) : Statement (.input f) :=
  ⟨fun h => ⟨h.1, zero_fits, zero_fits⟩, rfl, rfl,
    by simp [Instr.canonical, Instr.length, Instr.mnemonic, Mnemonic.takesImmediate]⟩

theorem output (f : Fields) : Statement (.output f) := single (fun _ => rfl) (fun _ => rfl) (fun _ _ => rfl) f
theorem builtin (f : Fields) : Statement (.builtin f) := single (fun _ => rfl) (fun _ => rfl) (fun _ _ => rfl) f

end Sys2Proof.Laws.Canonical
end

