-- ==== Sys2Proof/Laws/Step.lean ====
section
/-! SUPPORT. The inversion lemmas of the machine: every next state an instruction can answer (`exec_cases`), everything
a fetch can do (`fetchInstr_cases`), and every next state of a step (`step_cases`). A rule of the whole machine follows
from them by cases, without unfolding a meaning. -/

namespace Sys2Proof.Machine

/-! ## Facts about destinations and stops -/

/-- A memory destination that can be resolved lies in Memory. -/
theorem dstLoc_mem {i : Nat} {d : Bool} {s u : State} (h : dstOk i d u = true)
    (hu : ∀ a, u.inMemory a = s.inMemory a) (a : Word) (ha : dstLoc i d u = .mem a) : s.inMemory a = true := by
  unfold dstLoc at ha
  cases d with
  | false => simp at ha; split at ha <;> cases ha
  | true =>
    simp at ha
    subst ha
    simp [dstOk] at h
    rw [← hu]
    exact h.2

/-- A register destination that can be resolved is the one its field names. -/
theorem dstLoc_reg {i : Nat} {d : Bool} {u : State} (h : dstOk i d u = true) (r : Reg) (ha : dstLoc i d u = .reg r) :
    d = false ∧ i = r.val := by
  unfold dstLoc at ha
  cases d with
  | true => simp at ha
  | false =>
    simp [dstOk] at h
    simp [h] at ha
    subst ha
    simp

theorem afterC_eq (f : Fields) (u : State) : afterC f u = u ∨ (f.imm = true ∧ afterC f u = u.advance) := by
  unfold afterC; cases f.imm <;> simp

theorem stopC_eq (f : Fields) (u : State) : stopC f u = u ∨ (f.imm = true ∧ stopC f u = u.advance) := by
  unfold stopC; cases f.imm <;> cases h : u.inMemory u.ip <;> simp

theorem stopAlu_eq (f : Fields) (u : State) : stopAlu f u = u ∨ (f.imm = true ∧ stopAlu f u = u.advance) := by
  unfold stopAlu; split
  · exact stopC_eq f u
  · exact .inl rfl

/-! ## Every next state of an instruction -/

/-- The instructions that store a Word at the place of a c operand's step: MOVE and the eight of R110. -/
abbrev storing (f : Fields) : List Instr := [.move f, .add f, .sub f, .mul f, .div f, .shr f, .shl f, .nand f, .xor f]

/-- The branches. -/
abbrev branches (f : Fields) : List Instr := [.br f, .brz f, .brnz f]

/-- The next states an instruction can answer from `s`, one constructor per way to end. -/
inductive NextOf (s : State) : Instr → State → Prop
  | halted (f : Fields) : NextOf s (.halt f) { s.advance with run := .halted }
  /-- a Word is stored after the c operand -/
  | stored (i : Instr) (f : Fields) (d : Loc) (v : Word) (hi : i ∈ storing f)
      (hm : ∀ a, d = .mem a → s.inMemory a = true)
      (hr : ∀ r : Reg, d = .reg r →
        (i = .move f → f.db = false ∧ f.rB = r.val) ∧ (i ≠ .move f → f.da = false ∧ f.rA = r.val)) :
      NextOf s i ((afterC f s.advance).store d v)
  /-- SUB with a zero result: the Store, then Z -/
  | zeroed (f : Fields) (d : Loc) (ho : aluOk f s.advance = true) (hz : bValue f s.advance = cValue f s.advance)
      (hm : ∀ a, d = .mem a → s.inMemory a = true) (hr : ∀ r : Reg, d = .reg r → f.da = false ∧ f.rA = r.val) :
      NextOf s (.sub f) ((afterC f s.advance).store d 0).setZero
  | taken (i : Instr) (f : Fields) (t : Word) (hi : i ∈ branches f) : NextOf s i ((afterC f s.advance).setIp t)
  | untaken (i : Instr) (f : Fields) (hi : i ∈ branches f) : NextOf s i (afterC f s.advance)
  /-- IN with a byte to take -/
  | took (f : Fields) (b : Byte) (rest : List Byte) (d : Loc) (v : Word) (hi : s.inp = b :: rest)
      (hm : ∀ a, d = .mem a → s.inMemory a = true) (hr : ∀ r : Reg, d = .reg r → f.dc = false ∧ f.rC = r.val) :
      NextOf s (.input f) ({ s.advance with inp := rest }.store d v)
  /-- IN at the end of the input, under `IN_EOF = value` -/
  | atEnd (f : Fields) (d : Loc) (v : Word) (hi : s.inp = []) (hm : ∀ a, d = .mem a → s.inMemory a = true)
      (hr : ∀ r : Reg, d = .reg r → f.dc = false ∧ f.rC = r.val) : NextOf s (.input f) (s.advance.store d v)
  | inWaits (f : Fields) (hi : s.inp = []) : NextOf s (.input f) s
  | emitted (f : Fields) (v : Word) : NextOf s (.output f) ((afterC f s.advance).emit v)
  | called (f : Fields) (e : BuiltinEffect) : NextOf s (.builtin f) ((afterC f s.advance).afterBuiltin e)
  | bifWaits (f : Fields) : NextOf s (.builtin f) s
  | bifFails (f : Fields) : NextOf s (.builtin f) { afterC f s.advance with run := .failed .fail }
  /-- Illegal, with the immediate consumed or not -/
  | illegal (i : Instr) (u : State) (hi : i.mnemonic ≠ .halt)
      (hu : u = s.advance ∨ (i.length = 2 ∧ u = s.advance.advance)) : NextOf s i { u with run := .failed .illegal }
  /-- IN that took its byte and has no destination -/
  | inIllegal (f : Fields) (b : Byte) (rest : List Byte) (hi : s.inp = b :: rest) :
      NextOf s (.input f) { s.advance with inp := rest, run := .failed .illegal }

/-- Illegal where an operand's step stops. -/
theorem NextOf.illegal_of {s u : State} {i : Instr} (hm : i.mnemonic ≠ .halt)
    (ht : i.mnemonic.takesImmediate = true) (h : u = s.advance ∨ (i.fields.imm = true ∧ u = s.advance.advance)) :
    NextOf s i { u with run := .failed .illegal } :=
  .illegal i u hm (h.imp id fun ⟨a, b⟩ => ⟨by simp [Instr.length, a, ht], b⟩)

/-- The seven ALU instructions that set no flag. -/
theorem aluPlain_cases {op : Word → Word → Micro Word} {f : Fields} {i : Instr} {s t : State} (hop : pureOp op)
    (hi : i ∈ storing f) (hne : i ≠ .move f) (hf : i.fields = f) (hm : i.mnemonic ≠ .halt)
    (ht : i.mnemonic.takesImmediate = true) (h : perform (do let _ ← aluInstr f op) s = .next t) : NextOf s i t := by
  rcases aluPlain_next hop h with ⟨ha, r, rfl⟩ | ⟨-, rfl⟩ | ⟨-, rfl⟩
  · simp only [aluOk, Bool.and_eq_true] at ha
    exact .stored i f _ _ hi (dstLoc_mem ha.1.1 fun _ => rfl)
      fun r hr => ⟨fun h => absurd h hne, fun _ => dstLoc_reg ha.1.1 r hr⟩
  · exact .illegal_of hm ht (hf ▸ afterC_eq f s.advance)
  · exact .illegal_of hm ht (hf ▸ stopAlu_eq f s.advance)

/-- The branches, whatever their condition. -/
theorem branch_cases {k : State → Bool} {f : Fields} {i : Instr} {s t : State} (hi : i ∈ branches f)
    (hf : i.fields = f) (hm : i.mnemonic ≠ .halt) (ht : i.mnemonic.takesImmediate = true)
    (h : perform (branchWhen f k) s = .next t) : NextOf s i t := by
  rcases branch_next h with ⟨-, rfl⟩ | ⟨-, rfl⟩
  · split
    · exact .taken i f _ hi
    · exact .untaken i f hi
  · exact .illegal_of hm ht (hf ▸ stopC_eq f s.advance)

/-- Every next state of `exec` is one of `NextOf`. -/
theorem exec_cases {i : Instr} {s t : State} (h : exec i s = .next t) : NextOf s i t := by
  cases i with
  | halt f => cases h; exact .halted f
  | move f =>
    rcases execMove_next h with ⟨-, hd, rfl⟩ | ⟨-, rfl⟩ | ⟨-, rfl⟩
    · exact .stored (.move f) f _ _ (by simp) (dstLoc_mem hd (by simp [State.inMemory]))
        fun r hr => ⟨fun _ => dstLoc_reg hd r hr, fun h => absurd rfl h⟩
    · exact .illegal_of (by simp [Instr.mnemonic]) rfl (afterC_eq f s.advance)
    · exact .illegal_of (by simp [Instr.mnemonic]) rfl (stopC_eq f s.advance)
  | add f => exact aluPlain_cases (f := f) (pureOp_pure _) (by simp) (by simp) rfl (by simp [Instr.mnemonic]) rfl h
  | sub f =>
    rcases execSub_next h with ⟨ho, r, he, rfl⟩ | ⟨-, rfl⟩
    · have ha := ho
      simp only [aluOk, Bool.and_eq_true] at ha
      split
      · next hz =>
        subst hz
        refine .zeroed f _ ho ?_ (dstLoc_mem ha.1.1 fun _ => rfl) (dstLoc_reg ha.1.1)
        symm at he
        rw [BitVec.sub_eq_iff_eq_add] at he
        simpa using he
      · exact .stored _ f _ _ (by simp) (dstLoc_mem ha.1.1 fun _ => rfl)
          fun r hr => ⟨fun h => by simp at h, fun _ => dstLoc_reg ha.1.1 r hr⟩
    · exact .illegal_of (by simp [Instr.mnemonic]) rfl (stopAlu_eq f s.advance)
  | mul f => exact aluPlain_cases (f := f) (pureOp_pure _) (by simp) (by simp) rfl (by simp [Instr.mnemonic]) rfl h
  | div f => exact aluPlain_cases (f := f) pureOp_divide (by simp) (by simp) rfl (by simp [Instr.mnemonic]) rfl h
  | shr f => exact aluPlain_cases (f := f) (pureOp_shift _) (by simp) (by simp) rfl (by simp [Instr.mnemonic]) rfl h
  | shl f => exact aluPlain_cases (f := f) (pureOp_shift _) (by simp) (by simp) rfl (by simp [Instr.mnemonic]) rfl h
  | nand f => exact aluPlain_cases (f := f) (pureOp_pure _) (by simp) (by simp) rfl (by simp [Instr.mnemonic]) rfl h
  | xor f => exact aluPlain_cases (f := f) (pureOp_pure _) (by simp) (by simp) rfl (by simp [Instr.mnemonic]) rfl h
  | br f => exact branch_cases (f := f) (by simp) rfl (by simp [Instr.mnemonic]) rfl h
  | brz f => exact branch_cases (f := f) (by simp) rfl (by simp [Instr.mnemonic]) rfl h
  | brnz f => exact branch_cases (f := f) (by simp) rfl (by simp [Instr.mnemonic]) rfl h
  | input f =>
    rcases execIn_next h with ⟨b, rest, hi, hd, rfl⟩ | ⟨b, rest, hi, rfl⟩ | ⟨hi, -, rfl⟩ | ⟨w, hi, hd, rfl⟩ | ⟨hi, rfl⟩
    · exact .took f b rest _ _ hi (dstLoc_mem hd fun _ => rfl) (dstLoc_reg hd)
    · exact .inIllegal f b rest hi
    · exact .inWaits f hi
    · exact .atEnd f _ _ hi (dstLoc_mem hd fun _ => rfl) (dstLoc_reg hd)
    · exact .illegal _ _ (by simp [Instr.mnemonic]) (.inl rfl)
  | output f =>
    rcases execOut_next h with ⟨-, rfl⟩ | ⟨-, rfl⟩
    · exact .emitted f _
    · exact .illegal_of (by simp [Instr.mnemonic]) rfl (stopC_eq f s.advance)
  | builtin f =>
    rcases execBif_next h with ⟨-, ⟨e, rfl⟩ | rfl⟩ | ⟨-, rfl⟩ | ⟨-, rfl⟩
    · exact .called f e
    · exact .bifWaits f
    · exact .bifFails f
    · exact .illegal_of (by simp [Instr.mnemonic]) rfl (stopC_eq f s.advance)

/-! ## The fetch and the step -/

/-- Everything a fetch can do: an instruction, Illegal with IP past the word, Illegal with IP on it, or, under a
parameter setting that is not the default, a refusal. -/
theorem fetchInstr_cases (s : State) :
    (s.inMemory s.ip = true ∧
      ((∃ i, decode s.cfg.opnum (s.load s.ip) = .ok i ∧ fetchInstr s = .ok i s.advance) ∨
        (∃ c, c.kind = .illegal ∧ fetchInstr s = .error (.fatal c) s.advance) ∨
        (s.cfg.strictReserved = false ∧ ∃ r, fetchInstr s = .error (.refused r) s.advance))) ∨
      (s.inMemory s.ip = false ∧
        ((∃ c, c.kind = .illegal ∧ fetchInstr s = .error (.fatal c) s) ∨
          (s.cfg.strictBounds = false ∧ ∃ r, fetchInstr s = .error (.refused r) s))) := by
  cases hm : s.inMemory s.ip with
  | false =>
    refine .inr ⟨rfl, ?_⟩
    obtain ⟨e, he, ⟨c, hc, rfl, hf⟩ | ⟨q, rfl, hq⟩⟩ :=
      stopsOutOfBounds_error (stopsOutOfBounds_bind (m := fetchImm) (fetchImm_stop s hm))
    · exact .inl ⟨c, hc, he⟩
    · exact .inr ⟨hq, q, he⟩
  | true =>
    refine .inl ⟨rfl, ?_⟩
    cases hd : decode s.cfg.opnum (s.load s.ip) with
    | ok i =>
      refine .inl ⟨i, rfl, ?_⟩
      rw [fetchInstr, bind_ok (fetchImm_ok s hm), bind_ok (get_micro _), advance_cfg, hd]
      rfl
    | error e =>
      cases e with
      | opcode op =>
        refine .inr (.inl ⟨.opcode, rfl, ?_⟩)
        rw [fetchInstr, bind_ok (fetchImm_ok s hm), bind_ok (get_micro _), advance_cfg, hd]
        rfl
      | reserved r =>
        have hr : fetchInstr s = (if s.cfg.strictReserved then raise .reserved else refuse .reservedBits) s.advance := by
          rw [fetchInstr, bind_ok (fetchImm_ok s hm), bind_ok (get_micro _), advance_cfg, hd]
          exact (bind_ok (get_micro _)).trans rfl
        cases h : s.cfg.strictReserved with
        | true => rw [h] at hr; exact .inr (.inl ⟨.reserved, rfl, hr⟩)
        | false => rw [h] at hr; exact .inr (.inr ⟨rfl, _, hr⟩)

/-- Every next state of a step: an instruction's, or Illegal at the fetch. -/
theorem step_cases {s t : State} (h : step s = .next t) :
    s.run = .running ∧
      ((s.inMemory s.ip = true ∧
          ((∃ i, decode s.cfg.opnum (s.load s.ip) = .ok i ∧ exec i s = .next t) ∨
            t = { s.advance with run := .failed .illegal })) ∨
        (s.inMemory s.ip = false ∧ t = { s with run := .failed .illegal })) := by
  unfold step at h
  split at h
  · next hr =>
    refine ⟨hr, ?_⟩
    rcases fetchInstr_cases s with ⟨hm, ⟨i, hd, he⟩ | ⟨c, hc, he⟩ | ⟨-, r, he⟩⟩ | ⟨hm, ⟨c, hc, he⟩ | ⟨-, r, he⟩⟩
    · rw [he] at h; exact .inl ⟨hm, .inl ⟨i, hd, h⟩⟩
    · rw [he] at h; cases h; exact .inl ⟨hm, .inr (by simp [State.takeFatal, hc])⟩
    · rw [he] at h; cases h
    · rw [he] at h; cases h; exact .inr ⟨hm, by simp [State.takeFatal, hc]⟩
    · rw [he] at h; cases h
  · cases h

end Sys2Proof.Machine
end

