-- ==== Sys2Proof/Tests/Slice0.lean ====
section
/-! SUPPORT. Tests, each from the spec's own layout or vectors (95_test_vectors.md), and for each obligation with
hypotheses a witness that meets them, at the boundary of each clause. -/

namespace Sys2Proof.Tests

open Sys2Proof.Machine

/-! ## Small machines -/

/-- The default parameters with `words` Words of Memory and `bifs` builtins. -/
def cfgOf (words bifs : Nat) : Config := { defaultConfig with memWords := words, bifCount := bifs }

/-- A machine just reset from an image, with a few registers and cells set. -/
def machine (cfg : Config) (image : List Word) (regs : List (Reg × Word)) (cells : List (Word × Word)) : State :=
  cells.foldl (fun s c => s.storeMem c.1 c.2)
    (regs.foldl (fun s r => s.setReg r.1 r.2) (State.resetWith { defaultParams with cfg := cfg, image := image }))

/-- The machine of most vectors: 64 Words, no builtin. -/
def small (image : List Word) (regs : List (Reg × Word)) : State := machine (cfgOf 64 0) image regs []

/-- The machine of V-FAULT: 8 Words. -/
def tiny (image : List Word) (regs : List (Reg × Word)) : State := machine (cfgOf 8 0) image regs []

/-- The machine of V-MODE and V-MOVE. -/
def modes (word : Word) : State :=
  machine (cfgOf 64 0) [word, 0x23] [(1, 0x20), (2, 0x21), (3, 0x22)]
    [(0x20, 100), (0x21, 200), (0x22, 300), (0x23, 400)]

/-- The machine of V-ALU: `OP R1, R2, R3` of an opcode digit, its operands and FLAGS. -/
def alu (op : Word) (b c flags : Word) : State :=
  small [op <<< 28 ||| 0x321] [(1, 0xDEAD), (2, b), (3, c), (14, flags)]

/-- The machine of V-BR: an instruction at 7 with its immediate 4 at 8. -/
def branch (word flags : Word) : State :=
  machine (cfgOf 16 0) [] [(10, 7), (5, 0x20), (14, flags)] [(7, word), (8, 4)]

/-- The machine of V-IO, with its input. -/
def reader (word : Word) (r1 : Word) (inp : List Byte) : State := { tiny [word, 0x77] [(1, r1)] with inp := inp }

/-- The machine of V-BIF: `BIF #i` with two builtins. -/
def caller (i : Word) : State := machine (cfgOf 8 2) [0xF8000000, i] [] []

/-- A machine with other parameters. -/
def withCfg (g : Config → Config) (s : State) : State := { s with cfg := g s.cfg }

/-- The next state, if that is the outcome. -/
def nextOf : Host.Outcome State Fault Refusal → Option State
  | .next t => some t
  | _ => none

/-- What one view of the next state shows. -/
def look {α : Type} (s : State) (view : State → α) : Option α := (nextOf (step s)).map view

/-- Fields with only register indices. -/
def regsOnly (rC rB rA : Nat) : Fields := ⟨false, false, false, false, rC, rB, rA⟩

/-! ## Well-formedness refuses each ill-formed index -/

theorem test_wellFormed_ok : (Instr.add (regsOnly 15 15 15)).WellFormed := by decide
theorem test_wellFormed_rC : ¬ (Instr.add (regsOnly 16 0 0)).WellFormed := by decide
theorem test_wellFormed_rB : ¬ (Instr.move (regsOnly 0 16 0)).WellFormed := by decide
theorem test_wellFormed_rA : ¬ (Instr.halt (regsOnly 0 0 16)).WellFormed := by decide

/-! ## Decoding: words written out from the layout of R50, `op imm dc db da rsv rC rB rA` -/

theorem test_decode_halt : decodeTableWord 32 0b0000_0_0_0_0_000000000000_0000_0000_0000 =
    some (.halt (regsOnly 0 0 0)) := by decide
theorem test_decode_move : decodeTableWord 32 0b0001_1_1_1_0_000000000000_0011_0010_0000 =
    some (.move ⟨true, true, true, false, 3, 2, 0⟩) := by decide
theorem test_decode_add : decodeTableWord 32 0b0010_1_0_0_1_000000000000_0000_0010_0001 =
    some (.add ⟨true, false, false, true, 0, 2, 1⟩) := by decide
theorem test_decode_sub : decodeTableWord 32 0b0011_0_0_0_0_000000000000_0011_0010_1110 =
    some (.sub (regsOnly 3 2 14)) := by decide
theorem test_decode_mul : decodeTableWord 32 0b0100_0_1_0_0_000000000000_0011_0010_0001 =
    some (.mul ⟨false, true, false, false, 3, 2, 1⟩) := by decide
theorem test_decode_div : decodeTableWord 32 0b0101_1_0_0_0_000000000000_0000_0010_0001 =
    some (.div ⟨true, false, false, false, 0, 2, 1⟩) := by decide
theorem test_decode_shr : decodeTableWord 32 0b0110_0_0_1_0_000000000000_0011_0010_0001 =
    some (.shr ⟨false, false, true, false, 3, 2, 1⟩) := by decide
theorem test_decode_shl : decodeTableWord 32 0b0111_0_0_0_1_000000000000_0011_0010_0001 =
    some (.shl ⟨false, false, false, true, 3, 2, 1⟩) := by decide
theorem test_decode_nand : decodeTableWord 32 0b1000_0_0_0_0_000000000000_1111_0111_1000 =
    some (.nand (regsOnly 15 7 8)) := by decide
theorem test_decode_xor : decodeTableWord 32 0b1001_1_0_0_0_000000000000_0000_0001_0001 =
    some (.xor ⟨true, false, false, false, 0, 1, 1⟩) := by decide
theorem test_decode_br : decodeTableWord 32 0b1010_0_1_0_0_000000000000_0001_0000_0000 =
    some (.br ⟨false, true, false, false, 1, 0, 0⟩) := by decide
theorem test_decode_brz : decodeTableWord 32 0b1011_1_0_0_0_000000000000_0000_0000_0000 =
    some (.brz ⟨true, false, false, false, 0, 0, 0⟩) := by decide
theorem test_decode_brnz : decodeTableWord 32 0b1100_0_0_0_0_000000000000_0101_0000_0000 =
    some (.brnz (regsOnly 5 0 0)) := by decide
theorem test_decode_in : decodeTableWord 32 0b1101_0_1_0_0_000000000000_0001_0000_0000 =
    some (.input ⟨false, true, false, false, 1, 0, 0⟩) := by decide
theorem test_decode_out : decodeTableWord 32 0b1110_0_0_0_0_000000000000_0010_0000_0000 =
    some (.output (regsOnly 2 0 0)) := by decide
theorem test_decode_bif : decodeTableWord 32 0b1111_1_1_0_0_000000000000_1110_0000_0000 =
    some (.builtin ⟨true, true, false, false, 14, 0, 0⟩) := by decide

/-- V-DEC: a reserved bit set, the lowest and the highest. -/
theorem test_decode_reserved : decodeTableWord 32 0x20001321 = none ∧ decodeTableWord 32 0x00800000 = none := by decide

/-- An undecodable opcode needs an `OPNUM` that is not injective (R154). -/
theorem test_decode_opcode : decode (Vector.replicate 16 0) 0x10000000 = .error (.opcode 1) := by decide

/-! ## One step per instruction -/

/-- R100, and R61: no field of HALT has an effect. -/
theorem test_halt : look (small [0x0F000FFF] []) (fun t => (t.run, t.ip)) = some (.halted, 1) := by decide

/-- V-MOVE, mode 111: `Mem[0x21] <- Mem[0x23]`. -/
theorem test_move_mode7 : look (modes 0x1E000320) (fun t => (t.load 0x21, t.reg 2, t.ip)) = some (400, 0x21, 2) := by
  decide

/-- V-MOVE: `MOVE [IP], #9` stores past its own immediate, since the destination comes after the source. -/
theorem test_move_ip : look (small [0x1A0000A0, 9] []) (fun t => (t.load 2, t.load 1, t.ip)) = some (9, 9, 2) := by
  decide

/-- V-MODE, mode 1111: `Mem[0x20] <- Mem[0x21] + Mem[0x23]`. -/
theorem test_add_mode15 : look (modes 0x2F000321) (fun t => (t.load 0x20, t.reg 1, t.ip)) = some (600, 0x20, 2) := by
  decide

/-- V-ALU: the sum wraps, and ADD leaves Z alone on a zero result. -/
theorem test_add_wraps : look (alu 2 0xFFFFFFFF 1 0) (fun t => (t.reg 1, t.reg 14)) = some (0, 0) := by decide

/-- V-ALU: the difference wraps. -/
theorem test_sub_wraps : look (alu 3 3 5 0) (fun t => (t.reg 1, t.reg 14)) = some (0xFFFFFFFE, 0) := by decide

/-- V-ALU: Z is set by a zero result, and a nonzero one does not clear it. -/
theorem test_sub_flag : look (alu 3 5 5 0) (fun t => t.reg 14) = some 2 ∧
    look (alu 3 5 3 2) (fun t => t.reg 14) = some 2 := by decide

theorem test_mul_low : look (alu 4 0xFFFFFFFF 0xFFFFFFFF 0) (fun t => (t.reg 1, t.reg 14)) = some (1, 0) := by decide

/-- V-ALU: unsigned division. -/
theorem test_div_unsigned : look (alu 5 0xFFFFFFFE 0xFFFFFFFF 0) (fun t => t.reg 1) = some 0 := by decide

/-- V-ALU: division by zero. -/
theorem test_div_zero : look (alu 5 7 0 0) (fun t => (t.reg 1, t.run, t.ip)) = some (0xDEAD, .failed .illegal, 1) := by
  decide

theorem test_shr_31 : look (alu 6 0x80000000 31 0) (fun t => t.reg 1) = some 1 := by decide
theorem test_shr_32 : look (alu 6 0xFFFFFFFF 32 0) (fun t => t.reg 1) = some 0 := by decide
theorem test_shl_drops : look (alu 7 0xFFFFFFFF 4 0) (fun t => t.reg 1) = some 0xFFFFFFF0 := by decide
theorem test_shl_mod32 : look (withCfg (fun c => { c with shiftGe32 := .mod32 }) (alu 7 1 33 0)) (fun t => t.reg 1) =
    some 2 := by decide
theorem test_nand : look (alu 8 0xFF00FF00 0x0FF00FF0 0) (fun t => t.reg 1) = some 0xF0FFF0FF := by decide
theorem test_xor : look (alu 9 0x12345678 0xFFFFFFFF 0) (fun t => t.reg 1) = some 0xEDCBA987 := by decide

/-- V-BR: `BR #4`. -/
theorem test_br : look (branch 0xA8000000 0) (fun t => t.ip) = some 4 := by decide

/-- V-BR: BRZ is taken when bit 1 is clear, whatever the other bits. -/
theorem test_brz_taken : look (branch 0xB8000000 0xFFFFFFFD) (fun t => t.ip) = some 4 := by decide
theorem test_brz_untaken : look (branch 0xB8000000 2) (fun t => t.ip) = some 9 := by decide
theorem test_brnz_taken : look (branch 0xC0000500 2) (fun t => t.ip) = some 0x20 := by decide

/-- V-BR: an untaken branch still resolves its operand. -/
theorem test_brnz_untaken_oob : look (tiny [0xCC000000, 100] []) (fun t => (t.run, t.ip)) =
    some (.failed .illegal, 2) := by decide

/-- V-IO: IN consumes no immediate. -/
theorem test_in_imm : look (reader 0xD8000100 0 [0x41]) (fun t => (t.reg 1, t.ip, t.inp)) = some (0x41, 1, []) := by
  decide

/-- V-IO: sign extension under `IN_EXT = sign`, stored through a register. -/
theorem test_in_sign : look (withCfg (fun c => { c with inExt := .sign }) (reader 0xD4000100 5 [0xE9]))
    (fun t => (t.load 5, t.reg 1)) = some (0xFFFFFFE9, 5) := by decide

/-- V-IO: `OUT #0x141`. -/
theorem test_out_low_byte : look (small [0xE8000000, 0x141] []) (fun t => (t.out, t.ip)) = some ([0x41], 2) := by decide

/-- V-BIF: index `BIF_COUNT`. -/
theorem test_bif_bound : look (caller 2) (fun t => (t.run, t.ip)) = some (.failed .fail, 2) := by decide

/-- V-BIF, builtin 1: what a builtin writes stands, IP among it. -/
theorem test_bif_effect :
    (fun t : State => (t.load 6, t.ip, t.run)) ((caller 1).afterBuiltin
      { regs := Vector.replicate 15 0, writes := [(6, 0xCAFE), (8, 1)], consumed := 0, emitted := [], ret := 0 }) =
    (0xCAFE, 0, .running) ∧
    memoryWithin 8 ((caller 1).afterBuiltin
      { regs := Vector.replicate 15 0, writes := [(6, 0xCAFE), (8, 1)], consumed := 0, emitted := [], ret := 0 }).mem =
    true := by decide

/-! ## Fatal conditions (V-FAULT) -/

theorem test_fault_reserved : look (tiny [0x00800000] []) (fun t => (t.run, t.ip)) = some (.failed .illegal, 1) := by
  decide
theorem test_fault_reg15 : look (tiny [0x2000032F] []) (fun t => (t.run, t.ip)) = some (.failed .illegal, 1) := by decide
theorem test_no_fault_unused_rC : look (tiny [0x28000F21, 5] []) (fun t => (t.reg 1, t.run, t.ip)) =
    some (5, .running, 2) := by decide
theorem test_fault_fetch : look (tiny [] [(10, 8)]) (fun t => (t.run, t.ip)) = some (.failed .illegal, 8) := by decide

/-- The host's own question of a table row, for `ADD [R1], R2, #0`: the first step after reset runs it. -/
theorem test_withFetchWord : look (State.reset.withFetchWord 32 0x29000021) (fun t => (t.run, t.ip)) =
    some (.running, 2) := by decide

/-! ## Witnesses -/

/-- An `OPNUM` other than the default, injective too. -/
def reversed : OpNum := #v[15, 14, 13, 12, 11, 10, 9, 8, 7, 6, 5, 4, 3, 2, 1, 0]

theorem witness_PackAndUnpackAreInverse : (⟨true, true, true, true, 15, 15, 15⟩ : Fields).WellFormed ∧
    rsvField 0xFF000FFF = 0 ∧ rsvField 0x00001000 ≠ 0 := by decide

theorem witness_DecodeOfEncodeIsTheInstruction :
    defaultOpNum.toList.Nodup ∧ reversed.toList.Nodup ∧ (Instr.xor (regsOnly 15 0 15)).WellFormed := by decide

theorem witness_DecodedWordIsTheEncoding :
    decode reversed 0x0F000FFF = .ok (.builtin ⟨true, true, true, true, 15, 15, 15⟩) := by decide

theorem witness_EveryOpcodeValueSelectsAnInstruction : reversed.toList.Nodup := by decide

theorem witness_WordDecodesExactlyWhenReservedIsZero :
    reversed.toList.Nodup ∧ rsvField 0xF0000FFF = 0 ∧ rsvField 0x00001000 ≠ 0 ∧ rsvField 0x00800000 ≠ 0 := by decide

/-- HALT in the last cell of Memory. -/
theorem witness_StepRunsTheDecodedInstruction :
    let s := machine (cfgOf 8 0) [] [(10, 7)] [(7, 0)]
    s.run = .running ∧ s.inMemory s.ip = true ∧ decode s.cfg.opnum (s.load s.ip) = .ok (.halt (regsOnly 0 0 0)) := by
  decide

theorem witness_FetchOutsideMemoryIsIllegal :
    let s := tiny [] [(10, 8)]
    s.run = .running ∧ s.inMemory s.ip = false ∧ s.cfg.strictBounds = true := by decide

theorem witness_ReservedBitsAreIllegal :
    let s := tiny [0x20001321] []
    s.run = .running ∧ s.inMemory s.ip = true ∧ rsvField (s.load s.ip) ≠ 0 := by decide

/-- The other setting of `STRICT_RESERVED`. -/
theorem witness_ReservedBitsAreIllegal_loose :
    let s := withCfg (fun c => { c with strictReserved := false }) (tiny [0x00800000] [])
    s.run = .running ∧ s.inMemory s.ip = true ∧ rsvField (s.load s.ip) ≠ 0 ∧ s.cfg.strictReserved = false := by decide

theorem witness_UnknownOpcodeIsIllegal :
    let s := withCfg (fun c => { c with opnum := Vector.replicate 16 0 }) (tiny [0x10000000] [])
    s.run = .running ∧ s.inMemory s.ip = true ∧ rsvField (s.load s.ip) = 0 ∧
      ∀ m, s.cfg.opnum.code m ≠ opField (s.load s.ip) := by
  refine ⟨rfl, by decide, by decide, fun m => ?_⟩
  cases m <;> decide

theorem witness_TerminalStatesPerformNoStep : { State.reset with run := .halted }.run ≠ .running := by decide

theorem witness_StoreIsSeenByTheNextFetch :
    let s := tiny [0x10000000] []
    memoryWf s.mem = true ∧ s.run = .running ∧ s.inMemory s.ip = true ∧
      decode s.cfg.opnum 0 = .ok (.halt (regsOnly 0 0 0)) := by decide

theorem witness_MemoryReadsLastWordWritten : memoryWf (tiny [0xDEADBEEF] []).mem = true ∧ (0 : Nat) ≠ 1 := by decide

/-- Two Words, and the empty file. -/
theorem witness_ImageWordsAreBigEndian :
    ([0x28, 0, 0, 0x01, 0, 0, 0, 0x02] : List Byte).length % 4 = 0 ∧
    imageWords [0x28, 0, 0, 0x01, 0, 0, 0, 0x02] = some [0x28000001, 2] ∧ imageWords [] = some [] := by decide

theorem witness_ResetEstablishesItsParameters :
    ({ defaultParams with image := [0x28000001], memFill := [7] } : ResetParams).image ++ [7] = [0x28000001, 7] := by
  decide

/-- An image that fills the smallest Memory. -/
theorem witness_ResetMeetsTheInvariant :
    let p := { defaultParams with cfg := cfgOf 1 0, image := [0x28000001] }
    validConfig p.cfg ∧ resetFits p = true := ⟨⟨by decide, by decide, by decide⟩, by decide⟩

/-- A store of the last cell of Memory: `MOVE [R2], R3` with `x[2] = 7`. -/
theorem witness_StepKeepsTheInvariant :
    let s := tiny [0x12000320] [(2, 7), (3, 0x1234)]
    s.Inv ∧ ∃ t, step s = .next t := ⟨⟨by decide, by decide, by decide, by decide, by decide⟩, _, rfl⟩

theorem witness_StepKeepsTheParameters : ∃ t, step (tiny [0x20000321] []) = .next t := ⟨_, rfl⟩

theorem witness_StreamsAreOneWay : ∃ t, step (reader 0xD0000100 0 [0x68, 0x69]) = .next t := ⟨_, rfl⟩

/-- A fetch out of bounds, one Word fetched, two Words fetched, a byte taken, and a failing BIF. -/
theorem witness_FailingStepIsPrecise :
    look (tiny [] [(10, 8)]) (fun t => t.run) = some (.failed .illegal) ∧
    look (alu 5 7 0 0) (fun t => t.run) = some (.failed .illegal) ∧
    look (small [0x58000021, 0] []) (fun t => t.run) = some (.failed .illegal) ∧
    look (reader 0xD4000100 99 [0x61, 0x62]) (fun t => (t.run, t.inp)) = some (.failed .illegal, [0x62]) ∧
    look (caller 0xFFFFFFFF) (fun t => t.run) = some (.failed .fail) := by decide

theorem witness_TerminalStatesHaveTheirCauses :
    look (tiny [0] []) (fun t => t.run) = some .halted ∧ look (caller 2) (fun t => t.run) = some (.failed .fail) := by
  decide

theorem witness_DefaultMachineAlwaysSteps : decidedConfig State.reset.cfg ∧ State.reset.run = .running :=
  ⟨⟨rfl, rfl, rfl, rfl, rfl, rfl⟩, rfl⟩

theorem witness_ZeroFlagIsSetBySubAndNeverCleared :
    let s := alu 3 5 5 0
    mayReplaceFlags (.sub (regsOnly 3 2 1)) = false ∧
      (nextOf (exec (.sub (regsOnly 3 2 1)) s)).map (fun t => t.zeroFlag) = some true ∧ s.zeroFlag = false := by decide

/-- One Word, two Words, and the wait. -/
theorem witness_InstructionMovesIpByItsLength :
    mayWriteIp (.add (regsOnly 3 2 1)) = false ∧ mayWriteIp (.add ⟨true, false, false, false, 15, 2, 1⟩) = false ∧
    look (alu 2 1 1 0) (fun t => (t.run, t.ip)) = some (.running, 1) ∧
    look (small [0x28000F21, 5] []) (fun t => (t.run, t.ip)) = some (.running, 2) ∧
    look (reader 0xD0000100 0 []) (fun t => (t.run, t.ip)) = some (.running, 0) := by decide

theorem witness_MoveCopiesOneWord :
    let f : Fields := ⟨true, true, true, false, 3, 2, 0⟩
    cOk f (modes 0x1E000320).advance = true ∧ dstOk f.rB f.db (afterC f (modes 0x1E000320).advance) = true := by decide

/-- A register destination 15, and a memory destination just past the last cell. -/
theorem witness_MoveToNoDestinationIsIllegal :
    let s := tiny [0] [(2, 8)]
    s.cfg.strictBounds = true ∧ cOk (regsOnly 0 15 0) s.advance = true ∧
      dstOk 15 false (afterC (regsOnly 0 15 0) s.advance) = false ∧
      dstOk 2 true (afterC ⟨false, false, true, false, 0, 2, 0⟩ s.advance) = false := by decide

theorem witness_MoveFrame : ∃ t, exec (.move ⟨true, true, true, false, 3, 2, 0⟩) (modes 0x1E000320) = .next t := ⟨_, rfl⟩

/-- A register form, and the form with every dereference, its memory operands in the last cell. -/
theorem witness_AddStoresTheSum :
    aluOk (regsOnly 3 2 1) (alu 2 0xFFFFFFFF 1 0).advance = true ∧
    aluOk ⟨false, true, true, true, 3, 2, 1⟩ (tiny [0] [(1, 7), (2, 7), (3, 7)]).advance = true := by decide

/-- A zero result and another. -/
theorem witness_SubStoresTheDifferenceAndSetsZero :
    let f := regsOnly 3 2 1
    (aluOk f (alu 3 5 5 0).advance = true ∧ bValue f (alu 3 5 5 0).advance = cValue f (alu 3 5 5 0).advance) ∧
    (aluOk f (alu 3 5 3 2).advance = true ∧ bValue f (alu 3 5 3 2).advance ≠ cValue f (alu 3 5 3 2).advance) := by decide

theorem witness_SubToFlagsStoresThenSets :
    let f := regsOnly 3 2 14
    aluOk f (alu 3 5 5 0x10).advance = true ∧ f.da = false ∧ f.rA = 14 ∧ aluOk f (alu 3 9 4 0x10).advance = true := by
  decide

theorem witness_MulStoresTheLowProduct : aluOk (regsOnly 3 2 1) (alu 4 0x10000 0x10000 0).advance = true := by decide

/-- A divisor of 1, and of 0. -/
theorem witness_DivStoresTheQuotientOrIsIllegal :
    let f := regsOnly 3 2 1
    (aluOk f (alu 5 7 1 0).advance = true ∧ cValue f (alu 5 7 1 0).advance ≠ 0) ∧
    (aluOk f (alu 5 7 0 0).advance = true ∧ cValue f (alu 5 7 0 0).advance = 0) := by decide

/-- Counts 31 and 32 under each setting of `SHIFT_GE32`. -/
theorem witness_ShrShiftsRight :
    let f := regsOnly 3 2 1
    let z := alu 6 0x80000000 32 0
    let m := withCfg (fun c => { c with shiftGe32 := .mod32 }) z
    let r := withCfg (fun c => { c with shiftGe32 := .refuse }) z
    (aluOk f (alu 6 0x80000000 31 0).advance = true ∧ (cValue f (alu 6 0x80000000 31 0).advance).toNat = 31) ∧
    (aluOk f z.advance = true ∧ (cValue f z.advance).toNat = 32 ∧ z.cfg.shiftGe32 = .zero) ∧
    (aluOk f m.advance = true ∧ (cValue f m.advance).toNat = 32 ∧ m.cfg.shiftGe32 = .mod32) ∧
    (aluOk f r.advance = true ∧ (cValue f r.advance).toNat = 32 ∧ r.cfg.shiftGe32 = .refuse) := by decide

theorem witness_ShlShiftsLeft :
    let f := regsOnly 3 2 1
    let z := alu 7 1 32 0
    let m := withCfg (fun c => { c with shiftGe32 := .mod32 }) z
    let r := withCfg (fun c => { c with shiftGe32 := .refuse }) z
    (aluOk f (alu 7 1 31 0).advance = true ∧ (cValue f (alu 7 1 31 0).advance).toNat = 31) ∧
    (aluOk f z.advance = true ∧ (cValue f z.advance).toNat = 32 ∧ z.cfg.shiftGe32 = .zero) ∧
    (aluOk f m.advance = true ∧ (cValue f m.advance).toNat = 32 ∧ m.cfg.shiftGe32 = .mod32) ∧
    (aluOk f r.advance = true ∧ (cValue f r.advance).toNat = 32 ∧ r.cfg.shiftGe32 = .refuse) := by decide

theorem witness_NandStoresTheComplementOfAnd : aluOk (regsOnly 3 2 1) (alu 8 0 0x1234 0).advance = true := by decide

theorem witness_XorStoresTheExclusiveOr : aluOk (regsOnly 3 2 1) (alu 9 0x68 0x20 0).advance = true := by decide

/-- The destination, then b, then c out of bounds, c with its immediate read and unread. -/
theorem witness_AluOperandOutOfBoundsIsIllegal :
    let s := tiny [0] [(1, 8)]
    let e := tiny [0] [(10, 7)]
    Instr.add (regsOnly 0 0 15) ∈ [Instr.add (regsOnly 0 0 15)] ∧ s.cfg.strictBounds = true ∧
    aluOk (regsOnly 0 0 15) s.advance = false ∧ aluOk ⟨false, false, true, false, 0, 1, 0⟩ s.advance = false ∧
    aluOk ⟨false, true, false, false, 1, 0, 0⟩ s.advance = false ∧
    aluOk ⟨true, false, false, false, 0, 0, 0⟩ e.advance = false := by decide

theorem witness_AluFrame :
    (∃ t, exec (.sub (regsOnly 3 2 1)) (alu 3 5 5 0) = .next t) ∧
    ∃ t, exec (.div (regsOnly 3 2 1)) (alu 5 7 0 0) = .next t := ⟨⟨_, rfl⟩, _, rfl⟩

theorem witness_AddToIpIsRelativeToTheImmediate :
    let s := machine (cfgOf 8 0) [] [(10, 6)] [(6, 0x280000AA), (7, 2)]
    s.inMemory (s.ip + 1) = true ∧ s.load (s.ip + 1) = 2 := by decide

theorem witness_BrJumps : cOk ⟨true, false, false, false, 0, 0, 0⟩ (branch 0xA8000000 0).advance = true := by decide

/-- Z clear with every other bit set, and Z set alone. -/
theorem witness_BrzJumpsWhenZeroFlagIsClear :
    let f : Fields := ⟨true, false, false, false, 0, 0, 0⟩
    (cOk f (branch 0xB8000000 0xFFFFFFFD).advance = true ∧
      ((branch 0xB8000000 0xFFFFFFFD).reg regFLAGS).getLsbD 1 = false) ∧
    (cOk f (branch 0xB8000000 2).advance = true ∧ ((branch 0xB8000000 2).reg regFLAGS).getLsbD 1 = true) := by decide

theorem witness_BrnzJumpsWhenZeroFlagIsSet :
    let f := regsOnly 5 0 0
    (cOk f (branch 0xC0000500 2).advance = true ∧ ((branch 0xC0000500 2).reg regFLAGS).getLsbD 1 = true) ∧
    (cOk f (branch 0xC0000500 1).advance = true ∧ ((branch 0xC0000500 1).reg regFLAGS).getLsbD 1 = false) := by decide

/-- A register 15, a dereference past the last cell, an immediate past the last cell. -/
theorem witness_SingleOperandOutOfBoundsIsIllegal :
    (tiny [] []).cfg.strictBounds = true ∧ cOk (regsOnly 15 0 0) (tiny [] []).advance = false ∧
    cOk ⟨false, true, false, false, 2, 0, 0⟩ (tiny [0x14000210] [(2, 8)]).advance = false ∧
    cOk ⟨true, false, false, false, 0, 1, 0⟩ (tiny [] [(10, 7)]).advance = false := by decide

theorem witness_ControlAndOutFrame :
    (∃ t, exec (.halt (regsOnly 0 0 0)) (tiny [0] []) = .next t) ∧
    (∃ t, exec (.brnz (regsOnly 5 0 0)) (branch 0xC0000500 2) = .next t) ∧
    ∃ t, exec (.output (regsOnly 2 0 0)) (tiny [0xE0000200] []) = .next t := ⟨⟨_, rfl⟩, ⟨_, rfl⟩, _, rfl⟩

/-- Bytes 0x7F and 0x80, the edge of sign extension. -/
theorem witness_InStoresTheFirstByte :
    let s := reader 0xD0000100 0 [0x7F]
    let t := withCfg (fun c => { c with inExt := .sign }) (reader 0xD4000100 7 [0x80])
    (s.inp = [0x7F] ∧ dstOk 1 false s.advance = true) ∧ (t.inp = [0x80] ∧ dstOk 1 true t.advance = true) := by decide

theorem witness_InOnEmptyInputWaits :
    let s := reader 0xD0000100 0 []
    let t := withCfg (fun c => { c with inEof := .value 0xFFFFFFFF }) s
    (s.inp = [] ∧ s.cfg.inEof = .block) ∧
      (t.inp = [] ∧ t.cfg.inEof = .value 0xFFFFFFFF ∧ dstOk 1 false t.advance = true) := by decide

/-- The address just past the last cell, with a byte to take and at the end of the input. -/
theorem witness_InToNoDestinationTakesTheByte :
    let s := reader 0xD4000100 8 [0x61]
    let t := withCfg (fun c => { c with inEof := .value 0 }) (reader 0xD4000100 8 [])
    (s.cfg.strictBounds = true ∧ dstOk 1 true s.advance = false ∧ s.inp = [0x61]) ∧
      (t.cfg.strictBounds = true ∧ dstOk 1 true t.advance = false ∧ t.inp = [] ∧ t.cfg.inEof = .value 0) := by decide

theorem witness_InFrame :
    ∃ t, exec (.input ⟨false, true, false, false, 1, 0, 0⟩) (reader 0xD4000100 5 [0xE9]) = .next t := ⟨_, rfl⟩

theorem witness_OutEmitsTheLowByte :
    cOk ⟨true, false, false, false, 0, 0, 0⟩ (small [0xE8000000, 0x141] []).advance = true := by decide

/-- The last index of the table. -/
theorem witness_BifRunsTheBuiltin :
    let f : Fields := ⟨true, false, false, false, 0, 0, 0⟩
    cOk f (caller 1).advance = true ∧ (cValue f (caller 1).advance).toNat + 1 = (caller 1).cfg.bifCount := by decide

/-- Indices `BIF_COUNT` and `BIF_COUNT + 1`, under both settings of `BIF_BOUND`. -/
theorem witness_BifIndexOutOfRangeFails :
    let f : Fields := ⟨true, false, false, false, 0, 0, 0⟩
    let r := withCfg (fun c => { c with bifBound := .reference }) (caller 2)
    (cOk f (caller 3).advance = true ∧ (cValue f (caller 3).advance).toNat = 3 ∧ (caller 3).cfg.bifCount = 2) ∧
    (cOk f (caller 2).advance = true ∧ (cValue f (caller 2).advance).toNat = (caller 2).cfg.bifCount ∧
      (caller 2).cfg.bifBound = .strict) ∧
    (cOk f r.advance = true ∧ (cValue f r.advance).toNat = r.cfg.bifCount ∧ r.cfg.bifBound = .reference) := by decide

theorem witness_BifFrame : ∃ t, exec (.builtin ⟨true, false, false, false, 0, 0, 0⟩) (caller 2) = .next t := ⟨_, rfl⟩

/-- An ALU operand, a single operand, the destinations of MOVE and of IN with a byte and at the end of its input, and
the fetch, out of bounds without `STRICT_BOUNDS`. -/
theorem witness_LooseBoundsAreRefused :
    let loose := withCfg (fun c => { c with strictBounds := false })
    let s := loose (reader 0xD4000100 8 [0x61])
    let v := withCfg (fun c => { c with inEof := .value 0xFFFFFFFF }) (loose (reader 0xD4000100 8 []))
    let e := loose (tiny [] [(10, 8)])
    s.cfg.strictBounds = false ∧ aluOk (regsOnly 15 0 0) s.advance = false ∧ cOk (regsOnly 15 0 0) s.advance = false ∧
    (cOk (regsOnly 0 15 0) s.advance = true ∧ dstOk 15 false (afterC (regsOnly 0 15 0) s.advance) = false) ∧
    (s.inp ≠ [] ∧ dstOk 1 true s.advance = false) ∧
    (v.cfg.strictBounds = false ∧ v.inp = [] ∧ v.cfg.inEof = .value 0xFFFFFFFF ∧ dstOk 1 true v.advance = false) ∧
    (e.cfg.strictBounds = false ∧ e.run = .running ∧ e.inMemory e.ip = false) := by decide

end Sys2Proof.Tests
end

section
/-! Proofs of the scope family (00_scope.md R5): reset meets the invariant (O17), no step changes a parameter (O19), and
the machine with the default decided parameters always steps (O23). -/

namespace Sys2Proof.Machine

/-! ## Reset (O17) -/

/-- An image and fill that fit leave no cell outside Memory (R181). -/
theorem memoryWithin_resetMemory {p : ResetParams} (h : resetFits p = true) :
    memoryWithin p.cfg.memWords (resetMemory p) = true := by
  refine memoryWithin_loadWords [] _ rfl ?_
  simpa [resetFits] using h

theorem resetWith_inv {p : ResetParams} (hc : validConfig p.cfg) (hf : resetFits p = true) :
    (State.resetWith p).Inv := ⟨memoryWf_resetMemory p, memoryWithin_resetMemory hf, hc⟩

theorem validConfig_defaultConfig : validConfig defaultConfig := ⟨by decide, Nat.le_refl _, by decide⟩

/-- Settles O17: the loader's image and fill are canonical and inside Memory, and the default parameters are in range. -/
theorem resetMeetsTheInvariant : Obligations.ResetMeetsTheInvariant :=
  ⟨fun _ => resetWith_inv, resetWith_inv validConfig_defaultConfig (by decide)⟩

/-! ## The parameters (O19) -/

/-- Every way an instruction can end leaves the parameters alone. -/
theorem NextOf.cfg_eq {s t : State} {i : Instr} (h : NextOf s i t) : t.cfg = s.cfg := by
  cases h with
  | illegal _ u _ hu => rcases hu with rfl | ⟨-, rfl⟩ <;> rfl
  | _ => simp

/-- Settles O19: by the cases of a step, an instruction's next state or Illegal at the fetch. -/
theorem stepKeepsTheParameters : Obligations.StepKeepsTheParameters := by
  intro s t h
  obtain ⟨-, ⟨-, ⟨i, -, he⟩ | rfl⟩ | ⟨-, rfl⟩⟩ := step_cases h
  · exact (exec_cases he).cfg_eq
  · rfl
  · rfl

/-! ## Results that are no refusal (O23)

Refusals come only from settings that are not the default. So a micro-step from a state with the default decided
parameters is not refused, and since it keeps the parameters, neither is the one after it. -/

/-- The result of a micro-step that is no refusal and, when it goes through, has the default decided parameters. -/
def staysDecided {α : Type} : EStateM.Result Stop State α → Prop
  | .ok _ t => decidedConfig t.cfg
  | .error (.fatal _) _ => True
  | .error .blocked _ => True
  | .error (.refused _) _ => False

section
variable {α β : Type} {u v : State}

@[simp] theorem staysDecided_ok (a : α) : staysDecided (.ok a u) ↔ decidedConfig u.cfg := Iff.rfl

/-- Sequencing: the first step's result, then the next step from any state with the default decided parameters. -/
theorem staysDecided_bind {m : Micro α} {k : α → Micro β} (hm : staysDecided (m u))
    (hk : ∀ a t, decidedConfig t.cfg → staysDecided (k a t)) : staysDecided ((m >>= k) u) := by
  cases h : m u with
  | ok a t => rw [h] at hm; rw [bind_ok h]; exact hk a t hm
  | error e t =>
    rw [h] at hm
    rw [bind_error h]
    cases e with
    | fatal c => trivial
    | blocked => trivial
    | refused q => exact hm

/-- An access out of bounds is Illegal under `STRICT_BOUNDS`, never refused (D5, D6). -/
theorem staysDecided_of_stopsOutOfBounds {r : EStateM.Result Stop State α} (h : stopsOutOfBounds r v)
    (hv : decidedConfig v.cfg) : staysDecided r := by
  obtain ⟨-, -, -, -, -, hb⟩ := hv
  obtain ⟨e, rfl, ⟨c, -, rfl, -⟩ | ⟨q, rfl, hq⟩⟩ := stopsOutOfBounds_error h
  · trivial
  · simp [hq] at hb

/-- An instruction whose own micro-steps are not refused has a next state. -/
theorem perform_steps {body : Micro Unit} (hu : decidedConfig u.cfg)
    (hbody : ∀ t, decidedConfig t.cfg → staysDecided (body t)) : ∃ t, perform body u = .next t := by
  have h : staysDecided (body u.advance) := hbody _ hu
  cases hb : body u.advance with
  | ok a t => exact ⟨_, perform_ok hb⟩
  | error e t =>
    cases e with
    | fatal c => exact ⟨_, perform_fatal hb⟩
    | blocked => exact ⟨_, perform_blocked hb⟩
    | refused q => rw [hb] at h; exact h.elim

end

/-! ## The shared micro-steps are not refused -/

section
variable {u : State} (hu : decidedConfig u.cfg)
include hu

theorem pure_staysDecided {α : Type} (a : α) : staysDecided ((pure a : Micro α) u) := hu

theorem resolveC_staysDecided (f : Fields) : staysDecided (resolveC f u) := by
  cases h : cOk f u with
  | true => simpa [resolveC_ok h] using hu
  | false => exact staysDecided_of_stopsOutOfBounds (resolveC_stop h) (by simpa using hu)

theorem resolveDst_staysDecided (i : Nat) (d : Bool) : staysDecided (resolveDst i d u) := by
  cases h : dstOk i d u with
  | true => simpa [resolveDst_ok h] using hu
  | false => exact staysDecided_of_stopsOutOfBounds (resolveDst_stop h) hu

theorem resolveTriple_staysDecided (f : Fields) : staysDecided (resolveTriple f u) := by
  cases h : aluOk f u with
  | true => simpa [resolveTriple_ok h] using hu
  | false => exact staysDecided_of_stopsOutOfBounds (resolveTriple_stop h) (by simpa using hu)

theorem store_staysDecided (d : Loc) (v : Word) : staysDecided (store d v u) := by simpa using hu

theorem flagOnZero_staysDecided (r : Word) : staysDecided (flagOnZero r u) := by
  rw [flagOnZero_micro]
  split <;> exact hu

theorem aluDivide_staysDecided (b c : Word) : staysDecided (aluDivide b c u) := by
  by_cases hc : c = 0
  · rw [aluDivide_zero u hc]; trivial
  · rw [aluDivide_ok u hc]; exact hu

/-- `SHIFT_GE32` is not `refuse` (D8). -/
theorem aluShift_staysDecided (shift : Word → Nat → Word) (b c : Word) : staysDecided (aluShift shift b c u) := by
  obtain ⟨r, hr⟩ | ⟨hs, -⟩ := aluShift_cases shift b c u
  · rw [hr]; exact hu
  · obtain ⟨hzero, -⟩ := hu
    rw [hzero] at hs
    cases hs

theorem takeInput_staysDecided : staysDecided (takeInput u) := by
  cases hi : u.inp with
  | cons b rest => rw [takeInput_cons hi]; exact hu
  | nil =>
    rw [takeInput_nil hi]
    cases u.cfg.inEof with
    | block => trivial
    | value w => exact hu

theorem callBuiltin_staysDecided (index : Word) : staysDecided (callBuiltin index u) := by
  obtain ⟨-, hr⟩ | ⟨e, -, hr⟩ := callBuiltin_cases index u
  · rw [hr]; trivial
  · rw [hr]; exact hu

/-- The eight of R110, for an operation that is not refused. -/
theorem aluInstr_staysDecided {op : Word → Word → Micro Word} (f : Fields)
    (hop : ∀ b c t, decidedConfig t.cfg → staysDecided (op b c t)) : staysDecided (aluInstr f op u) :=
  staysDecided_bind (resolveTriple_staysDecided hu f) fun _ _ ht =>
    staysDecided_bind (hop _ _ _ ht) fun _ _ ht => staysDecided_bind (store_staysDecided ht _ _) fun _ _ ht =>
      pure_staysDecided ht _

theorem branchWhen_staysDecided (f : Fields) (taken : State → Bool) : staysDecided (branchWhen f taken u) := by
  refine staysDecided_bind (resolveC_staysDecided hu f) fun _ t ht => ?_
  rw [bind_ok (get_micro t)]
  split <;> exact ht

end

/-! ## Every instruction and every fetch -/

section
variable {s : State} (hs : decidedConfig s.cfg)
include hs

/-- The seven ALU instructions that set no flag. -/
theorem aluPlain_steps {op : Word → Word → Micro Word} (f : Fields)
    (hop : ∀ b c t, decidedConfig t.cfg → staysDecided (op b c t)) :
    ∃ t, perform (do let _ ← aluInstr f op) s = .next t :=
  perform_steps hs fun _ hu => staysDecided_bind (aluInstr_staysDecided hu f hop) fun _ _ ht => pure_staysDecided ht ()

theorem execSub_steps (f : Fields) : ∃ t, execSub f s = .next t :=
  perform_steps hs fun _ hu =>
    staysDecided_bind (aluInstr_staysDecided hu f fun b c _ ht => pure_staysDecided ht (aluSub b c)) fun r _ ht =>
      flagOnZero_staysDecided ht r

theorem execMove_steps (f : Fields) : ∃ t, execMove f s = .next t :=
  perform_steps hs fun _ hu => staysDecided_bind (resolveC_staysDecided hu f) fun _ _ ht =>
    staysDecided_bind (resolveDst_staysDecided ht _ _) fun _ _ ht => store_staysDecided ht _ _

theorem execIn_steps (f : Fields) : ∃ t, execIn f s = .next t :=
  perform_steps hs fun _ hu => staysDecided_bind (takeInput_staysDecided hu) fun _ _ ht =>
    staysDecided_bind (resolveDst_staysDecided ht _ _) fun _ _ ht => store_staysDecided ht _ _

theorem execOut_steps (f : Fields) : ∃ t, execOut f s = .next t :=
  perform_steps hs fun _ hu => staysDecided_bind (resolveC_staysDecided hu f) fun _ _ ht => ht

/-- `BIF_BOUND` is not `reference` (D11). -/
theorem execBif_steps (f : Fields) : ∃ t, execBif f s = .next t := by
  refine perform_steps hs fun _ hu => staysDecided_bind (resolveC_staysDecided hu f) fun index t ht => ?_
  rw [bind_ok (get_micro t)]
  split
  · exact callBuiltin_staysDecided ht index
  · split
    · next hb =>
      obtain ⟨-, -, -, hstrict, -, -⟩ := ht
      rw [hstrict] at hb
      cases hb.1
    · trivial

/-- Under the default decided parameters every instruction has a next state. -/
theorem exec_steps (i : Instr) : ∃ t, exec i s = .next t := by
  cases i with
  | halt f => exact ⟨_, rfl⟩
  | move f => exact execMove_steps hs f
  | add f | mul f | nand f | xor f => exact aluPlain_steps hs f fun _ _ _ ht => pure_staysDecided ht _
  | sub f => exact execSub_steps hs f
  | div f => exact aluPlain_steps hs f fun b c _ ht => aluDivide_staysDecided ht b c
  | shr f | shl f => exact aluPlain_steps hs f fun b c _ ht => aluShift_staysDecided ht _ b c
  | br f | brz f | brnz f => exact perform_steps hs fun _ hu => branchWhen_staysDecided hu f _
  | input f => exact execIn_steps hs f
  | output f => exact execOut_steps hs f
  | builtin f => exact execBif_steps hs f

/-- Under `STRICT_RESERVED` and `STRICT_BOUNDS` a fetch answers an instruction or is Illegal (D5, D7). -/
theorem fetchInstr_decided : (∃ i, fetchInstr s = .ok i s.advance) ∨ ∃ c t, fetchInstr s = .error (.fatal c) t := by
  obtain ⟨-, -, -, -, hr, hb⟩ := hs
  obtain ⟨-, ⟨i, -, he⟩ | ⟨c, -, he⟩ | ⟨hf, -⟩⟩ | ⟨-, ⟨c, -, he⟩ | ⟨hf, -⟩⟩ := fetchInstr_cases s
  · exact .inl ⟨i, he⟩
  · exact .inr ⟨c, _, he⟩
  · simp [hr] at hf
  · exact .inr ⟨c, _, he⟩
  · simp [hb] at hf

end

/-- Settles O23: the fetch is not refused, and neither is the instruction it answers. -/
theorem defaultMachineAlwaysSteps : Obligations.DefaultMachineAlwaysSteps := by
  intro s hs hrun
  unfold step
  rw [hrun]
  obtain ⟨i, hi⟩ | ⟨c, t, hc⟩ := fetchInstr_decided hs
  · rw [hi]; exact exec_steps hs i
  · rw [hc]; exact ⟨_, rfl⟩

end Sys2Proof.Machine
end

section
/-! Proofs of the state family (10_state.md): the register law (O14), reset (O16), the machine's invariant (O18), the
streams (O20), the flag Z (O25) and the moves of IP (O26). Beside reset and the register law each follows from
`exec_cases` and `step_cases`, by the ways an instruction can end. -/

namespace Sys2Proof.Machine

/-! ## Registers (O14) -/

/-- Settles O14: no register is hardwired, so the one written reads as the value and the others as before. -/
theorem registerReadsLastWordWritten : Obligations.RegisterReadsLastWordWritten := by
  intro s r q v
  split
  · next h => rw [h]; exact reg_setReg_same s r v
  · next h => exact reg_setReg_ne s v h

/-! ## Reset (O16) -/

/-- The Word just written reads back. -/
theorem readWord_writeWord_same (m : Memory) (a : Nat) (v : Word) (h : memoryWf m = true) :
    readWord (writeWord m a v) a = v := by
  have hb := readByte_writeWord_same m a v h
  have h0 := hb 0 (by decide)
  rw [Nat.add_zero] at h0
  rw [readWord, h0, hb 1 (by decide), hb 2 (by decide), hb 3 (by decide), wordOfBytes_byteOfWord]

/-- Each Word of a load lies at its place (20_memory.md R37). -/
theorem readWord_loadWords {m : Memory} {a k : Nat} {ws : List Word} {w : Word} (h : memoryWf m = true)
    (hk : ws[k]? = some w) : readWord (loadWords m a ws) (a + k) = w := by
  induction ws generalizing m a k with
  | nil => simp at hk
  | cons v ws ih =>
    have hv : memoryWf (writeWord m a v) = true := memoryWf_writeWord m a v h
    cases k with
    | zero =>
      obtain rfl : v = w := by simpa using hk
      exact (readWord_loadWords_below _ ws (Nat.lt_succ_self a)).trans (readWord_writeWord_same m a v h)
    | succ k =>
      have hr := ih (a := a + 1) hv (by simpa using hk)
      rwa [Nat.add_right_comm, Nat.add_assoc] at hr

theorem readWord_resetMemory {p : ResetParams} {k : Nat} {w : Word} (h : (p.image ++ p.memFill)[k]? = some w) :
    readWord (resetMemory p) k = w := by
  have hr := readWord_loadWords (m := []) (a := 0) rfl h
  rwa [Nat.zero_add] at hr

/-- ZERO and R1 to R9 are the first ten of `REG_INIT`. -/
theorem reg_resetWith (p : ResetParams) (i : Fin 10) :
    (State.resetWith p).reg ⟨i.val, by omega⟩ = p.regInit[i.val] := by
  fin_cases i <;> rfl

/-- Settles O16: the register file and Memory of reset hold what the loader gives, row by row of R28. -/
theorem resetEstablishesItsParameters : Obligations.ResetEstablishesItsParameters := fun p =>
  ⟨rfl, rfl, rfl, rfl, reg_resetWith p, rfl, rfl, fun _ _ => readWord_resetMemory, rfl, rfl, rfl⟩

/-! ## The invariant (O18) -/

section
variable {s t u : State} {i : Instr}

/-- The invariant speaks of Memory and the parameters only. -/
theorem State.Inv.of_eq (h : s.Inv) (hm : t.mem = s.mem) (hc : t.cfg = s.cfg) : t.Inv := by
  rwa [State.Inv, hm, hc]

theorem State.Inv.store {d : Loc} (h : u.Inv) (v : Word) (hd : ∀ a, d = .mem a → u.inMemory a = true) :
    (u.store d v).Inv := by
  cases d with
  | reg r => exact h.of_eq rfl rfl
  | mem a =>
    obtain ⟨hwf, hin, hcfg⟩ := h
    have ha : a.toNat < u.cfg.memWords := of_decide_eq_true (hd a rfl)
    exact ⟨memoryWf_writeWord _ _ _ hwf, memoryWithin_writeWord _ _ hin ha, hcfg⟩

/-- A builtin's writes outside Memory are not taken (log entry 10). -/
theorem State.Inv.afterBuiltin (h : u.Inv) (e : BuiltinEffect) : (u.afterBuiltin e).Inv := by
  obtain ⟨hwf, hin, hcfg⟩ := h
  exact ⟨memoryWf_builtinWrites _ _ hwf, memoryWithin_builtinWrites _ _ hin, hcfg⟩

theorem State.Inv.advance (h : s.Inv) : s.advance.Inv := h.of_eq rfl rfl

theorem State.Inv.afterC (h : u.Inv) (f : Fields) : (afterC f u).Inv := h.of_eq (afterC_mem f u) (afterC_cfg f u)

/-- Every way an instruction can end keeps the invariant: it stores at an address that was checked, or calls a builtin,
or leaves Memory alone. -/
theorem NextOf.inv (h : NextOf s i t) (hs : s.Inv) : t.Inv := by
  have hc (f : Fields) : (afterC f s.advance).Inv := hs.advance.afterC f
  cases h with
  | stored _ f d v _ hm _ => exact (hc f).store v (by simpa using hm)
  | zeroed f d _ _ hm _ => exact ((hc f).store 0 (by simpa using hm)).of_eq rfl rfl
  | took f b rest d v _ hm _ =>
    have hu : State.Inv { s.advance with inp := rest } := hs.of_eq rfl rfl
    exact hu.store v hm
  | atEnd f d v _ hm _ => exact hs.advance.store v hm
  | called f e => exact (hc f).afterBuiltin e
  | illegal _ u _ hu => rcases hu with rfl | ⟨-, rfl⟩ <;> exact hs.of_eq rfl rfl
  | inWaits | bifWaits => exact hs
  | halted | taken | untaken | emitted | bifFails | inIllegal => exact hs.of_eq (by simp) (by simp)

end

/-- Settles O18: by the cases of a step, an instruction's next state or Illegal at the fetch. -/
theorem stepKeepsTheInvariant : Obligations.StepKeepsTheInvariant := by
  intro s t hs h
  obtain ⟨-, ⟨-, ⟨i, -, he⟩ | rfl⟩ | ⟨-, rfl⟩⟩ := step_cases h
  · exact (exec_cases he).inv hs
  · exact hs.of_eq rfl rfl
  · exact hs.of_eq rfl rfl

/-! ## The streams (O20) -/

section
variable {s t : State} {i : Instr}

/-- OUT and a builtin append to the output; nothing else touches it (R25). -/
theorem NextOf.out_prefix (h : NextOf s i t) : s.out <+: t.out := by
  cases h with
  | illegal _ u _ hu => rcases hu with rfl | ⟨-, rfl⟩ <;> exact List.prefix_rfl
  | _ => simp

/-- IN takes the first byte and a builtin some first bytes; nothing else touches the input (R24). -/
theorem NextOf.inp_suffix (h : NextOf s i t) : t.inp <:+ s.inp := by
  cases h with
  | illegal _ u _ hu => rcases hu with rfl | ⟨-, rfl⟩ <;> exact List.suffix_rfl
  | took _ b rest _ _ hi | inIllegal _ b rest hi => simp [hi]
  | called f e => simpa using List.drop_suffix e.consumed s.inp
  | _ => simp

end

/-- Settles O20: by the cases of a step; a fetch that is Illegal touches no stream. -/
theorem streamsAreOneWay : Obligations.StreamsAreOneWay := by
  intro s t h
  obtain ⟨-, ⟨-, ⟨i, -, he⟩ | rfl⟩ | ⟨-, rfl⟩⟩ := step_cases h
  · exact ⟨(exec_cases he).out_prefix, (exec_cases he).inp_suffix⟩
  · exact ⟨List.prefix_rfl, List.suffix_rfl⟩
  · exact ⟨List.prefix_rfl, List.suffix_rfl⟩

/-! ## The register an instruction names as its destination -/

/-- Whether the destination field of an instruction names the register `q` itself (R85). -/
def storesTo (q : Reg) : Instr → Bool
  | .move f => !f.db && f.rB == q.val
  | .add f | .sub f | .mul f | .div f | .shr f | .shl f | .nand f | .xor f => !f.da && f.rA == q.val
  | .input f => !f.dc && f.rC == q.val
  | .halt _ | .br _ | .brz _ | .brnz _ | .output _ | .builtin _ => false

theorem storesTo_ip {i : Instr} (h : mayWriteIp i = false) : storesTo regIP i = false := by
  cases i with
  | br | brz | brnz | builtin => rfl
  | _ => exact h

theorem storesTo_flags {i : Instr} (h : mayReplaceFlags i = false) : storesTo regFLAGS i = false := by
  cases i with
  | builtin => rfl
  | _ => exact h

section
variable {q : Reg} {d : Loc} {i : Instr} {f : Fields}

/-- A destination field that does not name `q` does not resolve to `q`. -/
theorem loc_ne_reg {deref : Bool} {n : Nat} (hr : ∀ r : Reg, d = .reg r → deref = false ∧ n = r.val)
    (h : (!deref && n == q.val) = false) : d ≠ .reg q := by
  intro e
  obtain ⟨rfl, rfl⟩ := hr q e
  simp at h

/-- MOVE and the eight of R110 store where their own destination field says. -/
theorem storing_loc_ne_reg (hi : i ∈ storing f)
    (hr : ∀ r : Reg, d = .reg r →
      (i = .move f → f.db = false ∧ f.rB = r.val) ∧ (i ≠ .move f → f.da = false ∧ f.rA = r.val))
    (h : storesTo q i = false) : d ≠ .reg q := by
  rcases List.mem_cons.mp hi with rfl | hi
  · exact loc_ne_reg (fun r e => (hr r e).1 rfl) h
  · have hne : i ≠ .move f := by rintro rfl; simp at hi
    have ha : (!f.da && f.rA == q.val) = false := by
      simp only [List.mem_cons, List.not_mem_nil, or_false] at hi
      rcases hi with rfl | rfl | rfl | rfl | rfl | rfl | rfl | rfl <;> exact h
    exact loc_ne_reg (fun r e => (hr r e).2 hne) ha

end

/-! ## The flag Z (O25) -/

section
variable {s t : State} {i : Instr}

theorem zeroFlag_of_reg_eq (h : t.reg regFLAGS = s.reg regFLAGS) : t.zeroFlag = s.zeroFlag := by
  rw [State.zeroFlag, State.zeroFlag, h]

theorem zeroFlag_setZero (s : State) : s.setZero.zeroFlag = true := by
  simp [State.zeroFlag, State.setZero]

theorem flags_afterC_advance (f : Fields) (s : State) : (afterC f s.advance).reg regFLAGS = s.reg regFLAGS :=
  (reg_afterC_ne f s.advance (by decide)).trans (reg_advance_ne s (by decide))

/-- An instruction that does not replace FLAGS leaves it alone, but for a SUB with a zero result, which sets Z (R18). -/
theorem NextOf.flags_eq_or_zeroed (h : NextOf s i t) (hf : mayReplaceFlags i = false) :
    t.reg regFLAGS = s.reg regFLAGS ∨
      t.zeroFlag = true ∧ ∃ f, i = .sub f ∧ aluOk f s.advance = true ∧ bValue f s.advance = cValue f s.advance := by
  have hadv : s.advance.reg regFLAGS = s.reg regFLAGS := reg_advance_ne s (by decide)
  have hd := storesTo_flags hf
  cases h with
  | zeroed f d ho hz => exact .inr ⟨zeroFlag_setZero _, f, rfl, ho, hz⟩
  | stored _ f d v hi _ hr =>
    exact .inl ((reg_store_ne _ v (storing_loc_ne_reg hi hr hd)).trans (flags_afterC_advance f s))
  | took f b rest d v _ _ hr => exact .inl ((reg_store_ne _ v (loc_ne_reg hr hd)).trans hadv)
  | atEnd f d v _ _ hr => exact .inl ((reg_store_ne _ v (loc_ne_reg hr hd)).trans hadv)
  | taken _ f v => exact .inl ((reg_setIp_ne _ v (by decide)).trans (flags_afterC_advance f s))
  | untaken _ f | emitted f => exact .inl (flags_afterC_advance f s)
  | called | bifWaits | bifFails => cases hf
  | illegal _ u _ hu =>
    rcases hu with rfl | ⟨-, rfl⟩
    · exact .inl hadv
    · exact .inl ((reg_advance_ne s.advance (by decide)).trans hadv)
  | halted | inIllegal => exact .inl hadv
  | inWaits => exact .inl rfl

end

/-- Settles O25: only the SUB with a zero result can leave another Z than it found. -/
theorem zeroFlagIsSetBySubAndNeverCleared : Obligations.ZeroFlagIsSetBySubAndNeverCleared := by
  intro i s t hf h hne
  exact ((exec_cases h).flags_eq_or_zeroed hf).resolve_left fun e => hne (zeroFlag_of_reg_eq e)

/-! ## The moves of IP (O26) -/

section
variable {s t : State} {i : Instr} {f : Fields}

theorem storing_takesImmediate (hi : i ∈ storing f) : i.fields = f ∧ i.mnemonic.takesImmediate = true := by
  simp only [List.mem_cons, List.not_mem_nil, or_false] at hi
  rcases hi with rfl | rfl | rfl | rfl | rfl | rfl | rfl | rfl | rfl <;> exact ⟨rfl, rfl⟩

/-- Past the c operand IP is past the instruction, if it is one that takes an immediate (R59, R82). -/
theorem ip_afterC_advance (hf : i.fields = f) (ht : i.mnemonic.takesImmediate = true) (s : State) :
    (afterC f s.advance).ip = s.ip + BitVec.ofNat 32 i.length := by
  rw [Instr.length, hf, ht, afterC]
  cases f.imm with
  | false => exact ip_advance s
  | true =>
    rw [if_pos rfl, ip_advance, ip_advance, BitVec.add_assoc]
    rfl

/-- An instruction that takes no immediate is one Word (R59). -/
theorem ip_advance_length (ht : i.mnemonic.takesImmediate = false) (s : State) :
    s.advance.ip = s.ip + BitVec.ofNat 32 i.length := by
  rw [Instr.length, ht, Bool.and_false]
  exact ip_advance s

/-- A Store that is not to IP leaves IP. -/
theorem ip_store_ne {d : Loc} (s : State) (v : Word) (h : d ≠ .reg regIP) : (s.store d v).ip = s.ip :=
  reg_store_ne s v h

/-- An instruction that does not write IP and does not fail has moved it past its own Words, or is an IN that waits. -/
theorem NextOf.ip_eq (h : NextOf s i t) (hw : mayWriteIp i = false) (hk : ∀ k, t.run ≠ .failed k) :
    t.ip = s.ip + BitVec.ofNat 32 i.length ∨ ((∃ f, i = .input f) ∧ s.inp = [] ∧ t = s) := by
  have hd := storesTo_ip hw
  cases h with
  | halted => exact .inl (ip_advance_length rfl s)
  | stored _ f d v hi _ hr =>
    obtain ⟨hf, ht⟩ := storing_takesImmediate hi
    exact .inl ((ip_store_ne _ v (storing_loc_ne_reg hi hr hd)).trans (ip_afterC_advance hf ht s))
  | zeroed f d _ _ _ hr =>
    have hc := ip_afterC_advance (i := .sub f) rfl rfl s
    exact .inl ((setZero_ip _).trans ((ip_store_ne _ 0 (loc_ne_reg hr hd)).trans hc))
  | took f b rest d v _ _ hr | atEnd f d v _ _ hr =>
    exact .inl ((ip_store_ne _ v (loc_ne_reg hr hd)).trans (ip_advance_length rfl s))
  | inWaits f hi => exact .inr ⟨⟨f, rfl⟩, hi, rfl⟩
  | emitted f v => exact .inl (ip_afterC_advance (i := .output f) rfl rfl s)
  | taken _ f _ hi | untaken _ f hi =>
    simp only [List.mem_cons, List.not_mem_nil, or_false] at hi
    rcases hi with rfl | rfl | rfl <;> cases hw
  | called | bifWaits | bifFails => cases hw
  | illegal | inIllegal => exact absurd rfl (hk .illegal)

end

/-- Settles O26: by the ways an instruction can end, those that write IP and those that fail left out. -/
theorem instructionMovesIpByItsLength : Obligations.InstructionMovesIpByItsLength :=
  fun _ _ _ hw _ h hk => (exec_cases h).ip_eq hw hk

end Sys2Proof.Machine
end

section
/-! Proofs of the memory family (20_memory.md): the fetch of a Word just stored (O12), read after write (O13), the
program image (O15), and accesses out of bounds without `STRICT_BOUNDS` (O56). -/

namespace Sys2Proof.Machine

/-! ## Read after write (O13) -/

/-- Settles O13: the Word written reads back, and a Word write leaves every other Word alone. -/
theorem memoryReadsLastWordWritten : Obligations.MemoryReadsLastWordWritten := by
  intro m a b v h
  split
  · next e => rw [e]; exact readWord_writeWord_same m a v h
  · next e => exact readWord_writeWord_ne m v e

/-! ## The fetch of a stored Word (O12) -/

/-- The fetch of a Word that is an instruction (R71, R73). -/
theorem fetchInstr_ok {s : State} {i : Instr} (hm : s.inMemory s.ip = true)
    (hd : decode s.cfg.opnum (s.load s.ip) = .ok i) : fetchInstr s = .ok i s.advance := by
  rw [fetchInstr, bind_ok (fetchImm_ok s hm), bind_ok (get_micro _), advance_cfg, hd]
  rfl

/-- A running machine executes the instruction at IP (R75). -/
theorem step_eq_exec {s : State} {i : Instr} (hrun : s.run = .running) (hm : s.inMemory s.ip = true)
    (hd : decode s.cfg.opnum (s.load s.ip) = .ok i) : step s = exec i s := by
  rw [step, hrun, fetchInstr_ok hm hd]

/-- A Word stored is loaded from its address. -/
theorem load_storeMem_same (s : State) (a v : Word) (h : memoryWf s.mem = true) : (s.storeMem a v).load a = v :=
  readWord_writeWord_same s.mem a.toNat v h

/-- Settles O12: a store to Memory moves neither IP nor the parameters, and the fetch loads the Word it stored. -/
theorem storeIsSeenByTheNextFetch : Obligations.StoreIsSeenByTheNextFetch := by
  intro s v i hwf hrun hm hd
  refine step_eq_exec hrun hm ?_
  rw [storeMem_cfg, storeMem_ip, load_storeMem_same s s.ip v hwf, hd]

/-! ## The program image (O15) -/

/-- A file of whole Words has an image (R32). -/
theorem exists_imageWords {file : List Byte} (h : file.length % 4 = 0) : ∃ ws, imageWords file = some ws := by
  induction file using imageWords.induct with
  | case1 => exact ⟨[], rfl⟩
  | case2 b0 b1 b2 b3 rest ih =>
    simp only [List.length_cons] at h
    obtain ⟨ws, hws⟩ := ih (by omega)
    exact ⟨_, by rw [imageWords, hws, Option.map_some]⟩
  | case3 file hnil hcons =>
    match file with
    | [] => exact absurd rfl hnil
    | [_] | [_, _] | [_, _, _] => simp at h
    | b0 :: b1 :: b2 :: b3 :: rest => exact absurd rfl (hcons b0 b1 b2 b3 rest)

/-- A file that is not empty and does not begin with a whole Word has no image (log entry 31). -/
theorem imageWords_eq_none {file : List Byte} (hnil : file ≠ [])
    (hcons : ∀ b0 b1 b2 b3 rest, file ≠ b0 :: b1 :: b2 :: b3 :: rest) : imageWords file = none :=
  imageWords.eq_3 file hnil hcons

/-- The first Word of an image is that of the file's first four bytes, and the others are the image of the rest. -/
theorem imageWords_cons_eq_some {b0 b1 b2 b3 : Byte} {rest : List Byte} {ws : List Word}
    (h : imageWords (b0 :: b1 :: b2 :: b3 :: rest) = some ws) :
    ∃ vs, imageWords rest = some vs ∧ ws = wordOfBytes b0 b1 b2 b3 :: vs := by
  rw [imageWords, Option.map_eq_some_iff] at h
  obtain ⟨vs, hvs, rfl⟩ := h
  exact ⟨vs, hvs, rfl⟩

theorem length_of_imageWords {file : List Byte} {ws : List Word} (h : imageWords file = some ws) :
    file.length = 4 * ws.length := by
  induction file using imageWords.induct generalizing ws with
  | case1 => cases h; rfl
  | case2 b0 b1 b2 b3 rest ih =>
    obtain ⟨vs, hvs, rfl⟩ := imageWords_cons_eq_some h
    simp only [List.length_cons, ih hvs]
    omega
  | case3 file hnil hcons => rw [imageWords_eq_none hnil hcons] at h; cases h

/-- Word `k` of an image is made of the four bytes from `4k` on, the first one highest (R32). -/
theorem getElem?_imageWords {file : List Byte} {ws : List Word} {k : Nat} {b0 b1 b2 b3 : Byte}
    (h : imageWords file = some ws) (h0 : file[4 * k]? = some b0) (h1 : file[4 * k + 1]? = some b1)
    (h2 : file[4 * k + 2]? = some b2) (h3 : file[4 * k + 3]? = some b3) :
    ws[k]? = some (wordOfBytes b0 b1 b2 b3) := by
  induction file using imageWords.induct generalizing ws k with
  | case1 => simp at h0
  | case2 c0 c1 c2 c3 rest ih =>
    obtain ⟨vs, hvs, rfl⟩ := imageWords_cons_eq_some h
    cases k with
    | zero =>
      obtain rfl : c0 = b0 := Option.some.inj h0
      obtain rfl : c1 = b1 := Option.some.inj h1
      obtain rfl : c2 = b2 := Option.some.inj h2
      obtain rfl : c3 = b3 := Option.some.inj h3
      rfl
    | succ k => exact ih (ws := vs) hvs h0 h1 h2 h3
  | case3 file hnil hcons => rw [imageWords_eq_none hnil hcons] at h; cases h

/-- Settles O15: Word `k` of the image is the file's, and the load puts it at address `k`. -/
theorem imageWordsAreBigEndian : Obligations.ImageWordsAreBigEndian := by
  refine ⟨fun _ => exists_imageWords, fun file ws h => ⟨length_of_imageWords h, ?_⟩⟩
  intro k b0 b1 b2 b3 h0 h1 h2 h3
  have hr := readWord_loadWords (m := []) (a := 0) rfl (getElem?_imageWords h h0 h1 h2 h3)
  rwa [Nat.zero_add] at hr

/-! ## Out of bounds without `STRICT_BOUNDS` (O56)

A micro-step out of bounds stops the instruction, and without `STRICT_BOUNDS` the stop is a refusal (R36, D5, D6). So
each family of instructions needs only the micro-step that stops and the state in which it does. -/

section
variable {f : Fields} {s u : State}

/-- Without `STRICT_BOUNDS` an instruction stopped out of bounds is refused. -/
theorem perform_stop_refused {body : Micro Unit} (h : stopsOutOfBounds (body s.advance) u)
    (hu : u.cfg.strictBounds = false) : ∃ r, perform body s = .refused r := by
  obtain ⟨e, he, ⟨c, -, rfl, hs⟩ | ⟨r, rfl, -⟩⟩ := stopsOutOfBounds_error h
  · simp [hu] at hs
  · exact ⟨r, perform_refused he⟩

/-- A value is taken, then the destination is out of bounds: MOVE and IN. -/
theorem perform_dst_refused {m : Micro Word} {w : Word} {n : Nat} {d : Bool} (hm : m s.advance = .ok w u)
    (hu : u.cfg.strictBounds = false) (hd : dstOk n d u = false) :
    ∃ r, perform (do let w ← m; let dst ← resolveDst n d; store dst w) s = .refused r := by
  refine perform_stop_refused ?_ hu
  rw [bind_ok hm]
  exact stopsOutOfBounds_bind (resolveDst_stop hd)

section
variable (hs : s.cfg.strictBounds = false)
include hs

/-- One of the three operands of the eight of R110 is out of bounds, whatever the operation and what follows it. -/
theorem perform_alu_refused {op : Word → Word → Micro Word} {k : Word → Micro Unit}
    (h : aluOk f s.advance = false) : ∃ r, perform (aluInstr f op >>= k) s = .refused r :=
  perform_stop_refused (stopsOutOfBounds_bind (aluInstr_stop op h)) (by rwa [stopAlu_cfg])

/-- The operand of single-operand resolution is out of bounds, whatever is done with it (R78). -/
theorem perform_c_refused {k : Word → Micro Unit} (h : cOk f s.advance = false) :
    ∃ r, perform (resolveC f >>= k) s = .refused r :=
  perform_stop_refused (stopsOutOfBounds_bind (resolveC_stop h)) (by rwa [stopC_cfg])

theorem exec_move_dst_refused (hc : cOk f s.advance = true) (hd : dstOk f.rB f.db (afterC f s.advance) = false) :
    ∃ r, exec (.move f) s = .refused r :=
  perform_dst_refused (resolveC_ok hc) (by rwa [afterC_cfg]) hd

/-- IN with a byte to take: the destination is resolved after the byte is taken (R140). -/
theorem exec_input_dst_refused (hi : s.inp ≠ []) (hd : dstOk f.rC f.dc s.advance = false) :
    ∃ r, exec (.input f) s = .refused r := by
  obtain ⟨b, rest, hb⟩ := List.exists_cons_of_ne_nil hi
  exact perform_dst_refused (takeInput_cons (s := s.advance) hb) hs hd

/-- IN at the end of its input, where `IN_EOF` gives a Word (R141). -/
theorem exec_input_eof_dst_refused {w : Word} (hi : s.inp = []) (he : s.cfg.inEof = .value w)
    (hd : dstOk f.rC f.dc s.advance = false) : ∃ r, exec (.input f) s = .refused r := by
  have ht := takeInput_nil (s := s.advance) hi
  rw [advance_cfg, he] at ht
  exact perform_dst_refused ht hs hd

/-- Without `STRICT_BOUNDS` a read outside Memory is refused. -/
theorem memRead_refused {a : Word} (h : s.inMemory a = false) :
    memRead a s = .error (.refused .addressOutOfMemory) s := by
  simp [memRead, h, outOfBounds, hs]

/-- So is the fetch, by its read at IP. -/
theorem fetchInstr_refused (h : s.inMemory s.ip = false) :
    fetchInstr s = .error (.refused .addressOutOfMemory) s := by
  have hi : fetchImm s = .error (.refused .addressOutOfMemory) s := by
    rw [fetchImm, bind_ok (get_micro s), bind_error (memRead_refused hs h)]
  rw [fetchInstr, bind_error hi]

theorem step_outOfMemory_refused (hrun : s.run = .running) (h : s.inMemory s.ip = false) :
    step s = .refused .addressOutOfMemory := by
  rw [step, hrun, fetchInstr_refused hs h]
  rfl

end

end

/-- Settles O56: by family of instructions, each by the micro-step that stops; the fetch by its read at IP. -/
theorem looseBoundsAreRefused : Obligations.LooseBoundsAreRefused := by
  intro f s hs
  refine ⟨fun i hi h => ?alu, fun i hi h => ?single, exec_move_dst_refused hs, exec_input_dst_refused hs,
    fun _ => exec_input_eof_dst_refused hs, step_outOfMemory_refused hs⟩
  case alu =>
    simp only [List.mem_cons, List.not_mem_nil, or_false] at hi
    rcases hi with rfl | rfl | rfl | rfl | rfl | rfl | rfl | rfl <;> exact perform_alu_refused hs h
  case single =>
    simp only [List.mem_cons, List.not_mem_nil, or_false] at hi
    rcases hi with rfl | rfl | rfl | rfl | rfl | rfl <;> exact perform_c_refused hs h

end Sys2Proof.Machine
end

section
/-! Proofs of the encoding family (30_encoding.md): the round trips (O1, O2, O3), the opcode field (O4), the reserved
field (O5, O9), the sample words (O6), and the fields an instruction ignores (O24). A packed word is the sum of its
fields at their places, so the laws of packing are arithmetic on that sum; those of the decoder follow from
`decode_eq_ok_iff`. -/

namespace Sys2Proof

/-! ## A packed word is the sum of its fields (R50) -/

/-- Parts that do not overlap add up: the first a multiple of `2^k`, the second below it. -/
theorem toNat_or_eq_add {x y : Word} {a b : Nat} (k : Nat) (hx : x.toNat = a) (hy : y.toNat = b)
    (ha : 2 ^ k ∣ a := by omega) (hb : b < 2 ^ k := by omega) : (x ||| y).toNat = a + b := by
  obtain ⟨c, rfl⟩ := ha
  rw [BitVec.toNat_or, hx, hy, Nat.two_pow_add_eq_or_of_lt hb]

/-- A shift that drops no bit multiplies. -/
theorem toNat_shiftLeft_eq_mul {x : Word} {a : Nat} (k : Nat) (hx : x.toNat = a) (h : a * 2 ^ k < 2 ^ 32) :
    (x <<< k).toNat = a * 2 ^ k := by
  rw [BitVec.toNat_shiftLeft, hx, Nat.shiftLeft_eq, Nat.mod_eq_of_lt h]

theorem toNat_modeBit (b : Bool) {k : Nat} (h : k < 32) : (modeBit b k).toNat = b.toNat * 2 ^ k := by
  refine toNat_shiftLeft_eq_mul k (by cases b <;> rfl) ?_
  calc b.toNat * 2 ^ k ≤ 1 * 2 ^ k := Nat.mul_le_mul_right _ b.toNat_le
    _ < 2 ^ 32 := by rw [Nat.one_mul]; exact Nat.pow_lt_pow_right (by decide) h

/-- Each mode bit is 0 or 1. -/
theorem modeBits_le (f : Fields) : f.imm.toNat ≤ 1 ∧ f.dc.toNat ≤ 1 ∧ f.db.toNat ≤ 1 ∧ f.da.toNat ≤ 1 :=
  ⟨f.imm.toNat_le, f.dc.toNat_le, f.db.toNat_le, f.da.toNat_le⟩

/-- The parts of `pack` are added from the highest place down. -/
theorem toNat_pack (op : BitVec 4) {f : Fields} (h : f.WellFormed) :
    (pack op f).toNat = op.toNat * 2 ^ 28 + f.imm.toNat * 2 ^ 27 + f.dc.toNat * 2 ^ 26 + f.db.toNat * 2 ^ 25 +
      f.da.toNat * 2 ^ 24 + f.rC * 2 ^ 8 + f.rB * 2 ^ 4 + f.rA := by
  obtain ⟨hC, hB, hA⟩ := h
  have hm := modeBits_le f
  have index {r : Nat} (hr : r < 16) : (BitVec.ofNat 32 r).toNat = r := Nat.mod_eq_of_lt (by omega)
  have hop := toNat_shiftLeft_eq_mul 28 (BitVec.toNat_setWidth_of_le (b := op) (w' := 32) (by decide)) (by omega)
  have hImm := toNat_or_eq_add 28 hop (toNat_modeBit f.imm (k := 27) (by decide))
  have hDc := toNat_or_eq_add 27 hImm (toNat_modeBit f.dc (k := 26) (by decide))
  have hDb := toNat_or_eq_add 26 hDc (toNat_modeBit f.db (k := 25) (by decide))
  have hDa := toNat_or_eq_add 25 hDb (toNat_modeBit f.da (k := 24) (by decide))
  have hrC := toNat_or_eq_add 12 hDa (toNat_shiftLeft_eq_mul 8 (index hC) (by omega))
  have hrB := toNat_or_eq_add 8 hrC (toNat_shiftLeft_eq_mul 4 (index hB) (by omega))
  exact toNat_or_eq_add 4 hrB (index hA)

/-! ## The fields of a word as quotients -/

theorem toNat_opField (w : Word) : (opField w).toNat = w.toNat / 2 ^ 28 := by
  rw [opField, BitVec.extractLsb'_toNat, Nat.shiftRight_eq_div_pow]
  omega

theorem toNat_rsvField (w : Word) : (rsvField w).toNat = w.toNat / 2 ^ 12 % 2 ^ 12 := by
  rw [rsvField, BitVec.extractLsb'_toNat, Nat.shiftRight_eq_div_pow]

theorem toNat_indexField (w : Word) (k : Nat) : (w.extractLsb' k 4).toNat = w.toNat / 2 ^ k % 2 ^ 4 := by
  rw [BitVec.extractLsb'_toNat, Nat.shiftRight_eq_div_pow]

theorem toNat_getLsbD (w : Word) (k : Nat) : (w.getLsbD k).toNat = w.toNat / 2 ^ k % 2 := Nat.toNat_testBit w.toNat k

theorem getLsbD_eq_of_div_mod {w : Word} {k : Nat} {b : Bool} (h : w.toNat / 2 ^ k % 2 = b.toNat) :
    w.getLsbD k = b := by
  rw [← toNat_getLsbD] at h
  rw [Bool.eq_iff_iff, ← Bool.toNat_eq_one, ← Bool.toNat_eq_one, h]

theorem rsvField_eq_zero_iff (w : Word) : rsvField w = 0 ↔ w.toNat / 2 ^ 12 % 2 ^ 12 = 0 := by
  rw [← toNat_rsvField]
  exact BitVec.toNat_inj.symm

theorem unpackFields_wellFormed (w : Word) : (unpackFields w).WellFormed :=
  ⟨BitVec.isLt _, BitVec.isLt _, BitVec.isLt _⟩

/-! ## Packing and unpacking (O1) -/

section
variable (op : BitVec 4) {f : Fields} (h : f.WellFormed)
include h

theorem opField_pack : opField (pack op f) = op := by
  have hp := toNat_pack op h
  have hm := modeBits_le f
  obtain ⟨hC, hB, hA⟩ := h
  apply BitVec.eq_of_toNat_eq
  rw [toNat_opField]
  omega

theorem unpackFields_pack : unpackFields (pack op f) = f := by
  have hp := toNat_pack op h
  have hm := modeBits_le f
  obtain ⟨hC, hB, hA⟩ := h
  cases f
  simp only [unpackFields, Fields.mk.injEq, toNat_indexField] at *
  refine ⟨getLsbD_eq_of_div_mod ?_, getLsbD_eq_of_div_mod ?_, getLsbD_eq_of_div_mod ?_, getLsbD_eq_of_div_mod ?_,
    ?_, ?_, ?_⟩
  all_goals omega

theorem rsvField_pack : rsvField (pack op f) = 0 := by
  have hp := toNat_pack op h
  obtain ⟨hC, hB, hA⟩ := h
  rw [rsvField_eq_zero_iff]
  omega

end

/-- Packing the fields of a word loses its reserved field and nothing else. -/
theorem toNat_pack_unpackFields (w : Word) :
    (pack (opField w) (unpackFields w)).toNat + w.toNat / 2 ^ 12 % 2 ^ 12 * 2 ^ 12 = w.toNat := by
  rw [toNat_pack _ (unpackFields_wellFormed w), toNat_opField]
  simp only [unpackFields, toNat_getLsbD, toNat_indexField]
  omega

theorem pack_unpackFields_iff (w : Word) : pack (opField w) (unpackFields w) = w ↔ rsvField w = 0 := by
  have h := toNat_pack_unpackFields w
  rw [rsvField_eq_zero_iff, ← BitVec.toNat_inj]
  omega

/-- Settles O1: each law is arithmetic on the sum of the fields. -/
theorem packAndUnpackAreInverse : Obligations.PackAndUnpackAreInverse :=
  ⟨fun op _ h => ⟨opField_pack op h, unpackFields_pack op h, rsvField_pack op h, toNat_pack op h⟩,
    pack_unpackFields_iff⟩

/-! ## `OPNUM` both ways (O4) -/

theorem getElem?_allMnemonics_index (m : Mnemonic) : allMnemonics[m.index]? = some m := by cases m <;> rfl

theorem mem_allMnemonics (m : Mnemonic) : m ∈ allMnemonics := List.mem_of_getElem? (getElem?_allMnemonics_index m)

theorem Mnemonic.index_injective : Function.Injective Mnemonic.index := fun m k h =>
  Option.some.inj ((getElem?_allMnemonics_index m).symm.trans (h ▸ getElem?_allMnemonics_index k))

theorem Mnemonic.index_surjective : Function.Surjective Mnemonic.index :=
  fun i => ⟨allMnemonics.get i, by revert i; decide⟩

section
variable {n : OpNum} (hn : n.toList.Nodup)
include hn

theorem OpNum.get_injective : Function.Injective n.get := fun i j h => by
  have hij : n.toList[i.val]'(by simp) = n.toList[j.val]'(by simp) := by
    rw [Vector.getElem_toList, Vector.getElem_toList]
    exact h
  exact Fin.ext (hn.getElem_inj_iff.mp hij)

theorem OpNum.code_injective : Function.Injective n.code := (OpNum.get_injective hn).comp Mnemonic.index_injective

/-- Sixteen different numbers of four bits are all there are. -/
theorem OpNum.code_surjective : Function.Surjective n.code :=
  ((OpNum.get_injective hn).surjective_of_finite BitVec.equivFin.symm.toEquiv).comp Mnemonic.index_surjective

end

theorem OpNum.code_of_select {n : OpNum} {op : BitVec 4} {m : Mnemonic} (h : n.select op = some m) : n.code m = op := by
  simpa using List.find?_some h

/-- The search finds some mnemonic with the number, and there is only one. -/
theorem OpNum.select_code {n : OpNum} (hn : n.toList.Nodup) (m : Mnemonic) : n.select (n.code m) = some m := by
  have hs : (n.select (n.code m)).isSome = true := List.find?_isSome.mpr ⟨m, mem_allMnemonics m, by simp⟩
  obtain ⟨k, hk⟩ := Option.isSome_iff_exists.mp hs
  rw [hk, OpNum.code_injective hn (OpNum.code_of_select hk)]

/-- Settles O4: under an injective `OPNUM` every opcode value is some mnemonic's number. -/
theorem everyOpcodeValueSelectsAnInstruction : Obligations.EveryOpcodeValueSelectsAnInstruction := by
  refine ⟨toNat_opField, fun n op hn => ?_⟩
  obtain ⟨m, rfl⟩ := OpNum.code_surjective hn op
  exact ⟨m, OpNum.select_code hn m, rfl⟩

/-! ## The decoder (O2, O3, O5, O6) -/

@[simp] theorem Mnemonic.mnemonic_instr (m : Mnemonic) (f : Fields) : (m.instr f).mnemonic = m := by cases m <;> rfl

@[simp] theorem Mnemonic.fields_instr (m : Mnemonic) (f : Fields) : (m.instr f).fields = f := by cases m <;> rfl

@[simp] theorem Instr.mnemonic_instr_fields (i : Instr) : i.mnemonic.instr i.fields = i := by cases i <;> rfl

theorem decode_reserved (n : OpNum) {w : Word} (h : rsvField w ≠ 0) :
    decode n w = .error (.reserved (rsvField w)) := if_neg h

/-- When a word decodes, and to what (R56, R73). -/
theorem decode_eq_ok_iff (n : OpNum) (w : Word) (i : Instr) :
    decode n w = .ok i ↔ rsvField w = 0 ∧ n.select (opField w) = some i.mnemonic ∧ i.fields = unpackFields w := by
  by_cases h : rsvField w = 0
  · rw [decode, if_pos h]
    cases hs : n.select (opField w) with
    | none => simp
    | some m =>
      simp only [Except.ok.injEq, Option.some.injEq, h, true_and]
      constructor
      · rintro rfl
        simp
      · rintro ⟨rfl, hf⟩
        rw [← hf, Instr.mnemonic_instr_fields]
  · rw [decode_reserved n h]
    exact ⟨nofun, fun hw => absurd hw.1 h⟩

/-- Settles O2: the packed fields come back, the reserved field is 0, and the number selects the name it belongs to. -/
theorem decodeOfEncodeIsTheInstruction : Obligations.DecodeOfEncodeIsTheInstruction := by
  intro n i hn hi
  rw [decode_eq_ok_iff, encode, opField_pack _ hi, unpackFields_pack _ hi]
  exact ⟨rsvField_pack _ hi, OpNum.select_code hn _, rfl⟩

/-- Settles O3: a word with reserved field 0 is packed from its own fields, which are those of the instruction. -/
theorem decodedWordIsTheEncoding : Obligations.DecodedWordIsTheEncoding := by
  intro n w i h
  obtain ⟨hr, hs, hf⟩ := (decode_eq_ok_iff n w i).mp h
  constructor
  · rw [Instr.WellFormed, hf]
    exact unpackFields_wellFormed w
  · rw [encode, OpNum.code_of_select hs, hf, (pack_unpackFields_iff w).mpr hr]

/-- Settles O5: the opcode value always selects an instruction, so only the reserved field can reject a word. -/
theorem wordDecodesExactlyWhenReservedIsZero : Obligations.WordDecodesExactlyWhenReservedIsZero := by
  refine fun n w hn => ⟨fun hr => ?_, decode_reserved n⟩
  obtain ⟨m, hm⟩ := OpNum.code_surjective hn (opField w)
  refine ⟨m.instr (unpackFields w), ?_, m.fields_instr _, by rw [m.mnemonic_instr, hm]⟩
  rw [decode_eq_ok_iff, m.mnemonic_instr, m.fields_instr, ← hm]
  exact ⟨hr, OpNum.select_code hn m, rfl⟩

/-- Settles O6: the decoder evaluated on each of the six words. -/
theorem sampleWordsDecode : Obligations.SampleWordsDecode := by
  unfold Obligations.SampleWordsDecode
  decide

end Sys2Proof

namespace Sys2Proof.Machine

/-! ## The fetch of a word with a reserved bit set (O9) -/

/-- It stops after the increment of IP, Illegal or refused as `STRICT_RESERVED` says (R56, R72, D7). -/
theorem fetchInstr_reserved {s : State} (hm : s.inMemory s.ip = true) (hr : rsvField (s.load s.ip) ≠ 0) :
    fetchInstr s = .error (if s.cfg.strictReserved then .fatal .reserved else .refused .reservedBits) s.advance := by
  rw [fetchInstr, bind_ok (fetchImm_ok s hm), bind_ok (get_micro _), advance_cfg, decode_reserved _ hr]
  refine (bind_ok (get_micro _)).trans ?_
  rw [advance_cfg]
  split <;> rfl

/-- Settles O9: the fetch stops before the opcode is looked at. -/
theorem reservedBitsAreIllegal : Obligations.ReservedBitsAreIllegal := by
  intro s hrun hm hr
  rw [step, hrun, fetchInstr_reserved hm hr]
  cases s.cfg.strictReserved <;> rfl

/-! ## Fields an instruction ignores (O24)

Only `rawC` looks at rC, and not when the immediate takes its place; so the operands resolve alike from the canonical
fields, and an instruction is its operands' resolution and what follows. -/

theorem resolveC_canonC (f : Fields) : resolveC f.canonC = resolveC f := by
  unfold Fields.canonC
  split
  · next hi => simp [resolveC, rawC, hi]
  · rfl

/-- The fields b and a of the instruction are not looked at either (R78). -/
theorem resolveC_onlyC (f : Fields) : resolveC (Laws.Canonical.onlyC f) = resolveC f := resolveC_canonC f

theorem resolveDst_canonC (f : Fields) : resolveDst f.canonC.rB f.canonC.db = resolveDst f.rB f.db := by
  unfold Fields.canonC
  split <;> rfl

theorem resolveTriple_canonC (f : Fields) : resolveTriple f.canonC = resolveTriple f := by
  unfold resolveTriple
  rw [resolveC_canonC]
  unfold Fields.canonC
  split <;> rfl

theorem aluInstr_canonC (f : Fields) (op : Word → Word → Micro Word) : aluInstr f.canonC op = aluInstr f op := by
  rw [aluInstr, resolveTriple_canonC, aluInstr]

theorem execMove_canonical (f : Fields) (s : State) :
    execMove { f.canonC with da := false, rA := 0 } s = execMove f s := by
  have hc : resolveC { f.canonC with da := false, rA := 0 } = resolveC f := resolveC_canonC f
  rw [execMove, hc, resolveDst_canonC, execMove]

theorem perform_bind_congr {α : Type} {m m' : Micro α} {k : α → Micro Unit} {s : State} (h : m = m') :
    perform (m >>= k) s = perform (m' >>= k) s := by rw [h]

/-- Settles O24: HALT and IN use no c operand, MOVE has its own canonical form, the eight of R110 begin with the three
operands, and the others with single-operand resolution. -/
theorem ignoredFieldsHaveNoEffect : Obligations.IgnoredFieldsHaveNoEffect := by
  intro i s
  cases i with
  | halt f | input f => rfl
  | move f => exact (execMove_canonical f s).symm
  | add f | sub f | mul f | div f | shr f | shl f | nand f | xor f =>
    exact perform_bind_congr (aluInstr_canonC f _).symm
  | br f | brz f | brnz f | output f | builtin f => exact perform_bind_congr (resolveC_onlyC f).symm

end Sys2Proof.Machine
end

section
/-! Proofs of the engine family (40_engine_and_operands.md): the step (O7, O8, O11), SUB to FLAGS (O33), ADD to IP
(O42), single operands out of bounds (O46), and the frame of the instructions that store nothing (O47). -/

namespace Sys2Proof.Machine

/-! ## The step (O7, O8, O11) -/

/-- Settles O7: the fetch answers the instruction, and `exec` starts over from the state of the fetch. -/
theorem stepRunsTheDecodedInstruction : Obligations.StepRunsTheDecodedInstruction := fun _ _ => step_eq_exec

theorem takeFatal_of_illegal (s : State) {c : Cause} (h : c.kind = .illegal) :
    s.takeFatal c = { s with run := .failed .illegal } := by
  rw [State.takeFatal, h]

/-- Settles O8: of the ways a fetch can end only one begins outside Memory under `STRICT_BOUNDS`. -/
theorem fetchOutsideMemoryIsIllegal : Obligations.FetchOutsideMemoryIsIllegal := by
  intro s hrun hm hs
  obtain ⟨ht, -⟩ | ⟨-, ⟨c, hc, he⟩ | ⟨hf, -⟩⟩ := fetchInstr_cases s
  · simp [hm] at ht
  · rw [step, hrun, he, ← takeFatal_of_illegal s hc]
    rfl
  · simp [hs] at hf

/-- Settles O11: a step with a next state began in RUNNING. -/
theorem terminalStatesPerformNoStep : Obligations.TerminalStatesPerformNoStep := by
  intro s hrun t h
  obtain ⟨hr, -⟩ := step_cases h
  exact hrun hr

/-! ## Operands that are registers or an immediate (R78, R79, R85) -/

section
variable {f : Fields}

theorem regAt_val (u : State) (r : Reg) : u.regAt r.val = u.reg r := dif_pos r.isLt

theorem dstOk_register {i : Nat} {d : Bool} {r : Reg} (u : State) (hd : d = false) (hr : i = r.val) :
    dstOk i d u = true := by
  simp [dstOk, hd, hr]

theorem dstLoc_register {i : Nat} {d : Bool} {r : Reg} (u : State) (hd : d = false) (hr : i = r.val) :
    dstLoc i d u = .reg r := by
  simp [dstLoc, hd, hr]

theorem bOk_register {r : Reg} (u : State) (hd : f.db = false) (hr : f.rB = r.val) : bOk f u = true := by
  simp [bOk, hd, hr]

theorem bValue_register {r : Reg} (u : State) (hd : f.db = false) (hr : f.rB = r.val) : bValue f u = u.reg r := by
  rw [bValue, hd, hr, regAt_val]
  rfl

/-- An immediate can be resolved when it lies in Memory. -/
theorem cOk_immediate (u : State) (hi : f.imm = true) (hd : f.dc = false) : cOk f u = u.inMemory u.ip := by
  simp [cOk, cRawOk, hi, hd]

theorem cValue_immediate (u : State) (hi : f.imm = true) (hd : f.dc = false) : cValue f u = u.load u.ip := by
  simp [cValue, cRaw, hi, hd]

end

/-! ## The ALU when its operands resolve (O33, O42) -/

section
variable {f : Fields} {s : State} {r : Word}

/-- An ALU instruction that sets no flag, when its operation answers `r`, stores `r` and ends (R110). -/
theorem aluPlain_ok {op : Word → Word → Micro Word} (h : aluOk f s.advance = true)
    (ho : op (bValue f s.advance) (cValue f s.advance) (afterC f s.advance) = .ok r (afterC f s.advance)) :
    perform (do let _ ← aluInstr f op) s = .next ((afterC f s.advance).store (dstLoc f.rA f.da s.advance) r) :=
  perform_ok ((bind_ok (aluInstr_ok h ho)).trans (pure_micro _ _))

theorem execAdd_ok (h : aluOk f s.advance = true) :
    exec (.add f) s = .next ((afterC f s.advance).store (dstLoc f.rA f.da s.advance)
      (bValue f s.advance + cValue f s.advance)) := by
  rw [← aluAdd_eq_add]
  exact aluPlain_ok h rfl

/-- SUB stores the difference, and then sets Z if it is 0 (R112, D21). -/
theorem execSub_ok (h : aluOk f s.advance = true) (hr : r = bValue f s.advance - cValue f s.advance) :
    exec (.sub f) s = .next (if r = 0 then ((afterC f s.advance).store (dstLoc f.rA f.da s.advance) r).setZero
      else (afterC f s.advance).store (dstLoc f.rA f.da s.advance) r) := by
  rw [← aluSub_eq_sub] at hr
  subst hr
  exact perform_ok ((bind_ok (aluInstr_ok h rfl)).trans (flagOnZero_micro _ _))

end

/-- Z set in a FLAGS that holds 0. -/
theorem flags_setZero_of_eq_zero {s : State} (h : s.reg regFLAGS = 0) : s.setZero.reg regFLAGS = 2 := by
  rw [State.setZero, reg_setReg_same, h]
  rfl

/-- Settles O33: FLAGS holds the difference after the Store, and SUB then sets bit 1 of it when it is 0. -/
theorem subToFlagsStoresThenSets : Obligations.SubToFlagsStoresThenSets := by
  intro f s hok hda hrA
  have hd : dstLoc f.rA f.da s.advance = .reg regFLAGS := dstLoc_register _ hda hrA
  refine ⟨_, execSub_ok hok rfl, ?_⟩
  rw [hd, store_reg]
  by_cases he : bValue f s.advance = cValue f s.advance
  · have hz : bValue f s.advance - cValue f s.advance = 0 := sub_eq_zero.mpr he
    rw [if_pos hz, if_pos he, hz]
    exact flags_setZero_of_eq_zero (reg_setReg_same _ _ _)
  · rw [if_neg (mt sub_eq_zero.mp he), if_neg he]
    exact reg_setReg_same _ _ _

/-- Settles O42: b is IP as the fetch left it, at the immediate, and the Store to IP replaces the increment past it. -/
theorem addToIpIsRelativeToTheImmediate : Obligations.AddToIpIsRelativeToTheImmediate := by
  intro f s himm hdc hdb hda hrB hrA hm
  have hb : bValue f s.advance = s.ip + 1 := (bValue_register (r := regIP) _ hdb hrB).trans (ip_advance s)
  have hc : cValue f s.advance = s.load (s.ip + 1) := by
    rw [cValue_immediate _ himm hdc, ip_advance, advance_load]
  have hok : aluOk f s.advance = true := by
    rw [aluOk, dstOk_register (r := regIP) _ hda hrA, bOk_register (r := regIP) _ hdb hrB, cOk_immediate _ himm hdc,
      ip_advance]
    exact hm
  have hd : dstLoc f.rA f.da s.advance = .reg regIP := dstLoc_register _ hda hrA
  refine ⟨_, execAdd_ok hok, ?_⟩
  rw [hd, hb, hc, store_reg]
  exact reg_setReg_same _ _ _

/-! ## Single operands out of bounds (O46) -/

/-- The operand of single-operand resolution is out of bounds, whatever would be done with it (R78, D5, D6). -/
theorem perform_c_illegal {f : Fields} {s : State} {k : Word → Micro Unit} (hs : s.cfg.strictBounds = true)
    (h : cOk f s.advance = false) :
    perform (resolveC f >>= k) s = .next { stopC f s.advance with run := .failed .illegal } :=
  perform_outOfBounds (stopsOutOfBounds_bind (resolveC_stop h)) (by rwa [stopC_cfg])

/-- Settles O46: all six begin with the operand; a branch looks at its condition only after it (R134). -/
theorem singleOperandOutOfBoundsIsIllegal : Obligations.SingleOperandOutOfBoundsIsIllegal := by
  intro f s i hi hs hc
  simp only [List.mem_cons, List.not_mem_nil, or_false] at hi
  rcases hi with rfl | rfl | rfl | rfl | rfl | rfl <;> exact perform_c_illegal hs hc

/-! ## Instructions that store nothing (O47)

HALT, the branches and OUT leave a state that differs from the one before in IP, the run state and the output only; so
their frame is that of `setIp`. -/

theorem setIp_setIp (s : State) (a b : Word) : (s.setIp a).setIp b = s.setIp b := by
  simp [State.setIp, State.setReg]

section
variable {f : Fields} {s t : State}

theorem advance_advance_eq_setIp (s : State) : s.advance.advance = s.setIp (s.ip + 1 + 1) := by
  rw [State.advance, ip_advance]
  exact setIp_setIp s _ _

theorem afterC_advance_eq_setIp (f : Fields) (s : State) : ∃ a, afterC f s.advance = s.setIp a := by
  obtain h | ⟨-, h⟩ := afterC_eq f s.advance
  · exact ⟨_, h⟩
  · exact ⟨_, h.trans (advance_advance_eq_setIp s)⟩

theorem stopC_advance_eq_setIp (f : Fields) (s : State) : ∃ a, stopC f s.advance = s.setIp a := by
  obtain h | ⟨-, h⟩ := stopC_eq f s.advance
  · exact ⟨_, h⟩
  · exact ⟨_, h.trans (advance_advance_eq_setIp s)⟩

/-- A branch moves IP, or moves IP and is Illegal. -/
theorem branchWhen_eq_setIp {k : State → Bool} (h : perform (branchWhen f k) s = .next t) :
    ∃ a r, t = { s.setIp a with run := r } ∧ (r = s.run ∨ r = .failed .illegal) := by
  obtain ⟨a, ha⟩ := afterC_advance_eq_setIp f s
  obtain ⟨-, rfl⟩ | ⟨-, rfl⟩ := branch_next h
  · rw [ha, setIp_setIp]
    split
    · exact ⟨_, _, rfl, .inl rfl⟩
    · exact ⟨_, _, rfl, .inl rfl⟩
  · obtain ⟨b, hb⟩ := stopC_advance_eq_setIp f s
    exact ⟨b, _, by rw [hb], .inr rfl⟩

theorem exec_branch_eq_setIp {i : Instr} (hi : i ∈ branches f) (h : exec i s = .next t) :
    ∃ a r, t = { s.setIp a with run := r } ∧ (r = s.run ∨ r = .failed .illegal) := by
  simp only [List.mem_cons, List.not_mem_nil, or_false] at hi
  rcases hi with rfl | rfl | rfl <;> exact branchWhen_eq_setIp h

/-- OUT moves IP and emits, or moves IP and is Illegal. -/
theorem execOut_eq_setIp (h : execOut f s = .next t) :
    ∃ a r o, t = { s.setIp a with run := r, out := o } ∧ (r = s.run ∨ r = .failed .illegal) := by
  obtain ⟨-, rfl⟩ | ⟨-, rfl⟩ := execOut_next h
  · obtain ⟨a, ha⟩ := afterC_advance_eq_setIp f s
    exact ⟨a, _, _, by rw [ha]; rfl, .inl rfl⟩
  · obtain ⟨b, hb⟩ := stopC_advance_eq_setIp f s
    exact ⟨b, _, _, by rw [hb], .inr rfl⟩

/-- Every next state of an instruction that stores nothing. -/
theorem exec_eq_setIp {i : Instr} (hi : i ∈ [Instr.halt f, .br f, .brz f, .brnz f, .output f])
    (h : exec i s = .next t) :
    ∃ a r o, t = { s.setIp a with run := r, out := o } ∧ (i ≠ .output f → o = s.out) ∧
      (i ≠ .halt f → r = s.run ∨ r = .failed .illegal) := by
  obtain rfl | hb | rfl : i = .halt f ∨ i ∈ branches f ∨ i = .output f := by simpa [or_assoc] using hi
  · cases h
    exact ⟨_, _, _, rfl, fun _ => rfl, fun hne => absurd rfl hne⟩
  · obtain ⟨a, r, rfl, hr⟩ := exec_branch_eq_setIp hb h
    exact ⟨a, r, _, rfl, fun _ => rfl, fun _ => hr⟩
  · obtain ⟨a, r, o, rfl, hr⟩ := execOut_eq_setIp h
    exact ⟨a, r, o, rfl, fun hne => absurd rfl hne, fun _ => hr⟩

end

/-- Settles O47: Memory, the input, the counter and the parameters are none of what such an instruction changes, and of
the registers it writes IP alone. -/
theorem controlAndOutFrame : Obligations.ControlAndOutFrame := by
  intro f s t i hi h
  obtain ⟨a, r, o, rfl, ho, hr⟩ := exec_eq_setIp hi h
  exact ⟨fun q hq => reg_setIp_ne s a hq, fun _ => rfl, rfl, rfl, rfl, ho, hr⟩

end Sys2Proof.Machine
end

section
/-! Proofs of the HALT and MOVE family (41_halt_move.md): MOVE when it stores (O28) and when it has no destination
(O29), its frame (O30), and HALT (O27). The lemmas before O28 hold of every instruction that takes a value and stores
it, and those before O30 of every Store after moves of IP. -/

namespace Sys2Proof.Machine

/-! ## A value is taken, then stored (O28, O29)

MOVE takes its source and IN its byte; either then resolves the destination in the state the value left (D3). -/

section
variable {m : Micro Word} {w : Word} {s u : State} {n : Nat} {d : Bool} (hm : m s.advance = .ok w u)
include hm

theorem perform_dst_ok (hd : dstOk n d u = true) :
    perform (do let w ← m; let dst ← resolveDst n d; store dst w) s = .next (u.store (dstLoc n d u) w) :=
  perform_ok <| (bind_ok hm).trans <| (bind_ok (resolveDst_ok hd)).trans (store_micro _ _ _)

/-- Nothing is stored, and what taking the value did stays (R152). -/
theorem perform_dst_illegal (hs : u.cfg.strictBounds = true) (hd : dstOk n d u = false) :
    perform (do let w ← m; let dst ← resolveDst n d; store dst w) s = .next { u with run := .failed .illegal } := by
  refine perform_outOfBounds ?_ hs
  rw [bind_ok hm]
  exact stopsOutOfBounds_bind (resolveDst_stop hd)

end

/-- Settles O28: the value taken is the c operand. -/
theorem moveCopiesOneWord : Obligations.MoveCopiesOneWord :=
  fun _ _ hc hd => perform_dst_ok (resolveC_ok hc) hd

/-- Settles O29: the c operand is taken, IP past the immediate, and the destination stops. -/
theorem moveToNoDestinationIsIllegal : Obligations.MoveToNoDestinationIsIllegal :=
  fun _ _ hs hc hd => perform_dst_illegal (resolveC_ok hc) (by rwa [afterC_cfg]) hd

/-! ## The frame of a Store (O30) -/

section
variable {s u : State}

/-- A Store changes the four bytes of the Word at a memory destination at most (R86). -/
theorem sameMemoryBut_store (d : Loc) (v : Word) (h : u.mem = s.mem) : sameMemoryBut d s (u.store d v) := by
  cases d with
  | reg r => exact fun k => congrArg (readByte · k) h
  | mem a => exact fun k hk => (readByte_writeWord_ne u.mem v hk).trans (congrArg (readByte · k) h)

theorem sameMemoryBut_of_mem_eq (d : Loc) (h : u.mem = s.mem) : sameMemoryBut d s u := by
  cases d with
  | reg r => exact fun k => congrArg (readByte · k) h
  | mem a => exact fun k _ => congrArg (readByte · k) h

/-- A Store changes the register that is the destination at most (R86). -/
theorem sameRegsBut_store (d : Loc) (v : Word) (h : ∀ r : Reg, r ≠ regIP → u.reg r = s.reg r) :
    sameRegsBut d s (u.store d v) :=
  fun r hr hd => (reg_store_ne u v hd).trans (h r hr)

end

section
variable (s : State) (a : Word) (d : Loc)

/-- Beside IP, a Store after moves of IP changes only its destination. -/
theorem store_setIp_frame (v : Word) :
    sameRegsBut d s ((s.setIp a).store d v) ∧ sameMemoryBut d s ((s.setIp a).store d v) ∧
      sameStreams s ((s.setIp a).store d v) ∧ sameRunOrIllegal s ((s.setIp a).store d v) :=
  ⟨sameRegsBut_store d v fun _ => reg_setIp_ne s a, sameMemoryBut_store d v rfl,
    ⟨store_inp _ d v, store_out _ d v, store_bifCalls _ d v, store_cfg _ d v⟩, .inl (store_run _ d v)⟩

/-- Beside IP and the run state, an instruction that is Illegal after moves of IP changes nothing. -/
theorem illegal_setIp_frame :
    sameRegsBut d s { s.setIp a with run := .failed .illegal } ∧
      sameMemoryBut d s { s.setIp a with run := .failed .illegal } ∧
      sameStreams s { s.setIp a with run := .failed .illegal } ∧
      sameRunOrIllegal s { s.setIp a with run := .failed .illegal } :=
  ⟨fun _ hr _ => reg_setIp_ne s a hr, sameMemoryBut_of_mem_eq d rfl, ⟨rfl, rfl, rfl, rfl⟩, .inr rfl⟩

end

/-- Settles O30: MOVE moves IP, and then stores or is Illegal, at its destination or at its source. -/
theorem moveFrame : Obligations.MoveFrame := by
  intro f s t h
  obtain ⟨a, ha⟩ := afterC_advance_eq_setIp f s
  obtain ⟨-, -, rfl⟩ | ⟨-, rfl⟩ | ⟨-, rfl⟩ := execMove_next h
  · rw [ha]
    exact store_setIp_frame s a _ _
  · rw [ha]
    exact illegal_setIp_frame s a _
  · obtain ⟨b, hb⟩ := stopC_advance_eq_setIp f s
    rw [hb]
    exact illegal_setIp_frame s b _

/-! ## HALT (O27) -/

/-- Settles O27: HALT is one micro-step, which cannot stop, after the fetch's increment of IP. -/
theorem haltStopsWithSuccess : Obligations.HaltStopsWithSuccess :=
  fun _ _ => ⟨perform_ok (modify_micro (fun t => { t with run := .halted }) _), rfl⟩

end Sys2Proof.Machine
end

section
/-! Proofs of the arithmetic and logic family (42_arithmetic_logic.md): what each of the eight stores when its operands
resolve (O31, O32, O34 to O39), operands that do not resolve (O40), and the frame (O41). The eight differ in their
operation only, so each of the first is a fact about the operation and the shared Store. -/

namespace Sys2Proof.Machine

/-! ## The results as numbers and bits (R111 to R118) -/

section
variable (b c : Word) (n : Nat)

theorem toNat_aluAdd : (aluAdd b c).toNat = (b.toNat + c.toNat) % 2 ^ 32 := BitVec.toNat_ofNat _ _

theorem toNat_aluMul : (aluMul b c).toNat = (b.toNat * c.toNat) % 2 ^ 32 := BitVec.toNat_ofNat _ _

/-- A quotient is no larger than its dividend, so nothing is lost in a Word. -/
theorem toNat_aluDiv : (aluDiv b c).toNat = b.toNat / c.toNat :=
  (BitVec.toNat_ofNat _ _).trans (Nat.mod_eq_of_lt ((Nat.div_le_self _ _).trans_lt b.isLt))

theorem toNat_aluSub : ((aluSub b c).toNat : Int) = ((b.toNat : Int) - c.toNat) % 2 ^ 32 := by
  rw [aluSub, BitVec.toNat_ofInt]
  exact Int.toNat_of_nonneg (Int.emod_nonneg _ (by decide))

theorem aluSub_eq_zero_iff : aluSub b c = 0 ↔ b = c := by
  rw [aluSub_eq_sub]
  exact sub_eq_zero

theorem toNat_shiftRight : (shiftRight b n).toNat = b.toNat / 2 ^ n := by
  rw [shiftRight, BitVec.toNat_ushiftRight, Nat.shiftRight_eq_div_pow]

theorem toNat_shiftLeft : (shiftLeft b n).toNat = (b.toNat * 2 ^ n) % 2 ^ 32 := by
  rw [shiftLeft, BitVec.toNat_shiftLeft, Nat.shiftLeft_eq]

theorem getLsbD_aluNand {k : Nat} (hk : k < 32) : (aluNand b c).getLsbD k = !(b.getLsbD k && c.getLsbD k) := by
  simp [aluNand, hk]

theorem getLsbD_aluXor (k : Nat) : (aluXor b c).getLsbD k = (b.getLsbD k != c.getLsbD k) := by
  simp [aluXor]

end

/-! ## The shifts by the setting of `SHIFT_GE32` (R114, R115, D8) -/

section
variable {shift : Word → Nat → Word} {b c : Word} {u : State}

/-- The 0 of `SHIFT_GE32 = zero` is what a shift by the whole count leaves, when it shifts every bit out. -/
theorem aluShift_whole (hout : ∀ n, 32 ≤ n → shift b n = 0) (h : c.toNat < 32 ∨ u.cfg.shiftGe32 = .zero) :
    aluShift shift b c u = .ok (shift b c.toNat) u := by
  by_cases hc : c.toNat < 32
  · exact aluShift_small u hc
  · rw [aluShift_large u (not_lt.mp hc), h.resolve_left hc, hout _ (not_lt.mp hc)]

theorem aluShift_mod32 (hc : 32 ≤ c.toNat) (h : u.cfg.shiftGe32 = .mod32) :
    aluShift shift b c u = .ok (shift b (c.toNat % 32)) u := by
  rw [aluShift_large u hc, h]

theorem aluShift_refuse (hc : 32 ≤ c.toNat) (h : u.cfg.shiftGe32 = .refuse) :
    aluShift shift b c u = .error (.refused .shiftCount) u := by
  rw [aluShift_large u hc, h]

end

/-! ## The eight when their operands resolve (O31, O32, O34 to O39) -/

section
variable {f : Fields} {s : State} {op : Word → Word → Micro Word} (h : aluOk f s.advance = true)
include h

/-- An operation that meets a fatal condition does so before the Store (R118). -/
theorem aluPlain_fatal {e : Cause}
    (ho : op (bValue f s.advance) (cValue f s.advance) (afterC f s.advance) = .error (.fatal e) (afterC f s.advance)) :
    perform (do let _ ← aluInstr f op) s = .next ((afterC f s.advance).takeFatal e) :=
  perform_fatal (bind_error (aluInstr_error h ho))

theorem aluPlain_refused {q : Refusal}
    (ho : op (bValue f s.advance) (cValue f s.advance) (afterC f s.advance) = .error (.refused q) (afterC f s.advance)) :
    perform (do let _ ← aluInstr f op) s = .refused q :=
  perform_refused (bind_error (aluInstr_error h ho))

end

/-- Settles O31: the Word stored is `aluAdd`'s. -/
theorem addStoresTheSum : Obligations.AddStoresTheSum :=
  fun _ _ h => ⟨_, toNat_aluAdd _ _, aluPlain_ok h rfl⟩

/-- Settles O32: the Word stored is `aluSub`'s, and it decides whether Z is set. -/
theorem subStoresTheDifferenceAndSetsZero : Obligations.SubStoresTheDifferenceAndSetsZero :=
  fun _ _ h => ⟨_, toNat_aluSub _ _, aluSub_eq_zero_iff _ _, execSub_ok h (aluSub_eq_sub _ _)⟩

/-- Settles O34: the Word stored is `aluMul`'s. -/
theorem mulStoresTheLowProduct : Obligations.MulStoresTheLowProduct :=
  fun _ _ h => ⟨_, toNat_aluMul _ _, aluPlain_ok h rfl⟩

/-- Settles O35: the zero test stands between the operands and the Store. -/
theorem divStoresTheQuotientOrIsIllegal : Obligations.DivStoresTheQuotientOrIsIllegal :=
  fun _ _ h => ⟨fun hc => ⟨_, toNat_aluDiv _ _, aluPlain_ok h (aluDivide_ok _ hc)⟩,
    fun hc => aluPlain_fatal h (aluDivide_zero _ hc), rfl⟩

/-- Settles O36: by the settings of `SHIFT_GE32`; `b / 2^c` is 0 from a count of 32 on. -/
theorem shrShiftsRight : Obligations.ShrShiftsRight := by
  intro f s h
  rw [← advance_cfg s, ← afterC_cfg f s.advance]
  exact ⟨fun hc => ⟨_, toNat_shiftRight _ _, aluPlain_ok h (aluShift_whole (fun _ => BitVec.ushiftRight_eq_zero) hc)⟩,
    fun hc hm => ⟨_, toNat_shiftRight _ _, aluPlain_ok h (aluShift_mod32 hc hm)⟩,
    fun hc hr => aluPlain_refused h (aluShift_refuse hc hr)⟩

/-- Settles O37: by the settings of `SHIFT_GE32`; `b * 2^c` is 0 modulo 2^32 from a count of 32 on. -/
theorem shlShiftsLeft : Obligations.ShlShiftsLeft := by
  intro f s h
  rw [← advance_cfg s, ← afterC_cfg f s.advance]
  exact ⟨fun hc => ⟨_, toNat_shiftLeft _ _, aluPlain_ok h (aluShift_whole (fun _ => BitVec.shiftLeft_eq_zero) hc)⟩,
    fun hc hm => ⟨_, toNat_shiftLeft _ _, aluPlain_ok h (aluShift_mod32 hc hm)⟩,
    fun hc hr => aluPlain_refused h (aluShift_refuse hc hr)⟩

/-- Settles O38: the Word stored is `aluNand`'s. -/
theorem nandStoresTheComplementOfAnd : Obligations.NandStoresTheComplementOfAnd :=
  fun _ _ h => ⟨_, fun _ => getLsbD_aluNand _ _, aluPlain_ok h rfl⟩

/-- Settles O39: the Word stored is `aluXor`'s. -/
theorem xorStoresTheExclusiveOr : Obligations.XorStoresTheExclusiveOr :=
  fun _ _ h => ⟨_, fun k _ => getLsbD_aluXor _ _ k, aluPlain_ok h rfl⟩

/-! ## Operands that do not resolve (O40) -/

/-- One of the three operands is out of bounds, whatever the operation and what follows it (D5, D6). -/
theorem perform_alu_illegal {f : Fields} {s : State} {op : Word → Word → Micro Word} {k : Word → Micro Unit}
    (hs : s.cfg.strictBounds = true) (h : aluOk f s.advance = false) :
    perform (aluInstr f op >>= k) s = .next { stopAlu f s.advance with run := .failed .illegal } :=
  perform_outOfBounds (stopsOutOfBounds_bind (aluInstr_stop op h)) (by rwa [stopAlu_cfg])

/-- Settles O40: all eight begin with the three operands. -/
theorem aluOperandOutOfBoundsIsIllegal : Obligations.AluOperandOutOfBoundsIsIllegal := by
  intro f s i hi hs h
  simp only [List.mem_cons, List.not_mem_nil, or_false] at hi
  rcases hi with rfl | rfl | rfl | rfl | rfl | rfl | rfl | rfl <;> exact perform_alu_illegal hs h

/-! ## The frame (O41)

Before SUB sets Z, each of the eight has only moved IP and then stored or been Illegal. -/

/-- What a Store after moves of IP, or Illegal instead of it, can change: IP, the destination, the run state. -/
def changesOnly (d : Loc) (s t : State) : Prop :=
  sameRegsBut d s t ∧ sameMemoryBut d s t ∧ sameStreams s t ∧ sameRunOrIllegal s t

theorem changesOnly_store_afterC (f : Fields) (s : State) (d : Loc) (v : Word) :
    changesOnly d s ((afterC f s.advance).store d v) := by
  obtain ⟨a, ha⟩ := afterC_advance_eq_setIp f s
  rw [ha]
  exact store_setIp_frame s a d v

theorem changesOnly_illegal_afterC (f : Fields) (s : State) (d : Loc) :
    changesOnly d s { afterC f s.advance with run := .failed .illegal } := by
  obtain ⟨a, ha⟩ := afterC_advance_eq_setIp f s
  rw [ha]
  exact illegal_setIp_frame s a d

theorem stopAlu_advance_eq_setIp (f : Fields) (s : State) : ∃ a, stopAlu f s.advance = s.setIp a := by
  obtain h | ⟨-, h⟩ := stopAlu_eq f s.advance
  · exact ⟨_, h⟩
  · exact ⟨_, h.trans (advance_advance_eq_setIp s)⟩

theorem changesOnly_illegal_stopAlu (f : Fields) (s : State) (d : Loc) :
    changesOnly d s { stopAlu f s.advance with run := .failed .illegal } := by
  obtain ⟨a, ha⟩ := stopAlu_advance_eq_setIp f s
  rw [ha]
  exact illegal_setIp_frame s a d

section
variable {f : Fields} {s t : State} {i : Instr}

theorem aluPlain_changesOnly {op : Word → Word → Micro Word} (hop : pureOp op)
    (h : perform (do let _ ← aluInstr f op) s = .next t) : changesOnly (dstLoc f.rA f.da s.advance) s t := by
  obtain ⟨-, r, rfl⟩ | ⟨-, rfl⟩ | ⟨-, rfl⟩ := aluPlain_next hop h
  · exact changesOnly_store_afterC f s _ r
  · exact changesOnly_illegal_afterC f s _
  · exact changesOnly_illegal_stopAlu f s _

theorem execSub_changesOnly (h : execSub f s = .next t) :
    ∃ u, changesOnly (dstLoc f.rA f.da s.advance) s u ∧ (t = u ∨ t = u.setZero) := by
  obtain ⟨-, r, -, rfl⟩ | ⟨-, rfl⟩ := execSub_next h
  · refine ⟨_, changesOnly_store_afterC f s _ r, ?_⟩
    split
    · exact .inr rfl
    · exact .inl rfl
  · exact ⟨_, changesOnly_illegal_stopAlu f s _, .inl rfl⟩

/-- Each of the eight leaves its frame, and SUB may then set Z. -/
theorem exec_alu_changesOnly (hi : i ∈ [Instr.add f, .sub f, .mul f, .div f, .shr f, .shl f, .nand f, .xor f])
    (h : exec i s = .next t) :
    ∃ u, changesOnly (dstLoc f.rA f.da s.advance) s u ∧ (t = u ∨ i = .sub f ∧ t = u.setZero) := by
  obtain ⟨rfl, -⟩ := storing_takesImmediate (List.mem_cons_of_mem _ hi)
  cases i with
  | sub f =>
    obtain ⟨u, hu, ht⟩ := execSub_changesOnly h
    exact ⟨u, hu, ht.imp_right fun hz => ⟨rfl, hz⟩⟩
  | add f | mul f | nand f | xor f => exact ⟨t, aluPlain_changesOnly (pureOp_pure _) h, .inl rfl⟩
  | div f => exact ⟨t, aluPlain_changesOnly pureOp_divide h, .inl rfl⟩
  | shr f | shl f => exact ⟨t, aluPlain_changesOnly (pureOp_shift _) h, .inl rfl⟩
  | _ => simp at hi

end

/-- Setting Z touches bit 1 of FLAGS only (R18). -/
theorem getLsbD_flags_setZero_ne (s : State) {k : Nat} (hk : k ≠ 1) :
    (s.setZero.reg regFLAGS).getLsbD k = (s.reg regFLAGS).getLsbD k := by
  have h2 : (2 : Word).getLsbD k = false := by
    rw [show (2 : Word) = BitVec.twoPow 32 1 from rfl, BitVec.getLsbD_twoPow]
    simp [hk.symm]
  rw [State.setZero, reg_setReg_same, BitVec.getLsbD_or, h2, Bool.or_false]

/-- Settles O41: the frame of the state before Z, and what setting Z adds to it. -/
theorem aluFrame : Obligations.AluFrame := by
  intro f s t i hi h
  obtain ⟨u, ⟨hreg, hmem, hstr, hrun⟩, ht⟩ := exec_alu_changesOnly hi h
  have hflags := hreg regFLAGS (by decide)
  obtain rfl | ⟨rfl, rfl⟩ := ht
  · exact ⟨fun r hr hd _ => hreg r hr hd, fun _ hd k _ => by rw [hflags hd], hmem, hstr, hrun⟩
  · exact ⟨fun r hr hd hz => (reg_setZero_ne u (hz rfl)).trans (hreg r hr hd),
      fun _ hd k hk => by rw [getLsbD_flags_setZero_ne u hk, hflags hd], hmem, hstr, hrun⟩

end Sys2Proof.Machine
end

section
/-! Proofs of the branch family (43_branches.md): BR (O43), BRZ (O44) and BRNZ (O45) when the target resolves. The three
share the resolution and differ in the condition only, which is looked at in the state the resolution leaves (D4). -/

namespace Sys2Proof.Machine

/-- A branch whose target resolves goes there if its condition holds, and to the next instruction if not (R133, R134). -/
theorem perform_branchWhen_ok {f : Fields} {s : State} (taken : State → Bool) (h : cOk f s.advance = true) :
    perform (branchWhen f taken) s = .next (if taken (afterC f s.advance)
      then (afterC f s.advance).setIp (cValue f s.advance) else afterC f s.advance) := by
  refine perform_ok ((bind_ok (resolveC_ok h)).trans ((bind_ok (get_micro _)).trans ?_))
  cases taken (afterC f s.advance) with
  | true => exact modify_micro _ _
  | false => exact pure_micro _ _

/-- The fetch and the resolution of the target move IP alone, so a branch tests Z as it was before the step. -/
theorem zeroFlag_afterC_advance (f : Fields) (s : State) : (afterC f s.advance).zeroFlag = s.zeroFlag :=
  zeroFlag_of_reg_eq (flags_afterC_advance f s)

/-- Settles O43: its condition always holds. -/
theorem brJumps : Obligations.BrJumps :=
  fun _ _ h => perform_branchWhen_ok (fun _ => true) h

/-- Settles O44: its condition is that Z is clear, so the fall through is the side where the bit is set. -/
theorem brzJumpsWhenZeroFlagIsClear : Obligations.BrzJumpsWhenZeroFlagIsClear := by
  intro f s h
  refine (perform_branchWhen_ok (fun t => !t.zeroFlag) h).trans ?_
  rw [zeroFlag_afterC_advance, State.zeroFlag]
  cases (s.reg regFLAGS).getLsbD 1 <;> rfl

/-- Settles O45: its condition is that Z is set. -/
theorem brnzJumpsWhenZeroFlagIsSet : Obligations.BrnzJumpsWhenZeroFlagIsSet := by
  intro f s h
  rw [← State.zeroFlag, ← zeroFlag_afterC_advance f s]
  exact perform_branchWhen_ok State.zeroFlag h

end Sys2Proof.Machine
end

section
/-! Proofs of the input, output and builtin family (44_io_builtin.md): IN with a byte to take (O48), at the end of its
input (O49) and without a destination (O50), its frame (O51), OUT (O52), BIF inside (O53) and outside (O54) the table of
builtins, and its frame (O55). -/

namespace Sys2Proof.Machine

/-! ## IN (O48 to O50)

IN takes a value, and then stores it as MOVE does: the destination is resolved in the state the value left (D3). -/

/-- A byte whose top bit is set stands for itself minus 0x100 under sign extension (R140, D9). -/
theorem toNat_widenByte (e : InExt) (b : Byte) :
    (widenByte e b).toNat = if e = .sign ∧ 0x80 ≤ b.toNat then 0xFFFFFF00 + b.toNat else b.toNat := by
  have hz : (b.setWidth 32).toNat = b.toNat := BitVec.toNat_setWidth_of_le (by decide)
  cases e with
  | zero => rw [widenByte, hz, if_neg (fun h => InExt.noConfusion h.1)]
  | sign =>
    rw [widenByte, BitVec.toNat_signExtend, hz, BitVec.msb_eq_decide]
    by_cases h : 0x80 ≤ b.toNat <;> simp [h, Nat.add_comm]

/-- The Word of `IN_EOF` is taken from an empty input, which stays as it is (R141). -/
theorem takeInput_eof {s : State} {w : Word} (hi : s.inp = []) (he : s.cfg.inEof = .value w) :
    takeInput s = .ok w s := by
  rw [takeInput_nil hi, he]

theorem takeInput_block {s : State} (hi : s.inp = []) (he : s.cfg.inEof = .block) :
    takeInput s = .error .blocked s := by
  rw [takeInput_nil hi, he]

/-- Settles O48: the value taken is the first byte, widened. -/
theorem inStoresTheFirstByte : Obligations.InStoresTheFirstByte := by
  intro f s b rest hi hd
  exact ⟨_, toNat_widenByte s.cfg.inExt b, perform_dst_ok (takeInput_cons (s := s.advance) hi) hd⟩

/-- Settles O49: without a byte there is no value to take under `block`, and the Word of `IN_EOF` under `value`. -/
theorem inOnEmptyInputWaits : Obligations.InOnEmptyInputWaits := by
  intro f s hi
  constructor
  · intro he
    exact perform_blocked (bind_error (takeInput_block (s := s.advance) hi he))
  · intro w he hd
    exact perform_dst_ok (takeInput_eof (s := s.advance) hi he) hd

/-- Settles O50: the value is taken before the destination stops. -/
theorem inToNoDestinationTakesTheByte : Obligations.InToNoDestinationTakesTheByte := by
  intro f s hs hd
  constructor
  · intro b rest hi
    exact perform_dst_illegal (takeInput_cons (s := s.advance) hi) hs hd
  · intro w hi he
    exact perform_dst_illegal (takeInput_eof (s := s.advance) hi he) hs hd

/-! ## The frame of IN (O51)

But for the byte gone from the input, IN moves IP and then stores or is Illegal, or it waits. -/

theorem changesOnly_refl (d : Loc) (s : State) : changesOnly d s s :=
  ⟨fun _ _ _ => rfl, sameMemoryBut_of_mem_eq d rfl, ⟨rfl, rfl, rfl, rfl⟩, .inl rfl⟩

theorem execIn_changesOnly {f : Fields} {s t : State} (h : execIn f s = .next t) :
    ∃ rest, (rest = s.inp ∨ rest = s.inp.tail) ∧ changesOnly (dstLoc f.rC f.dc s.advance) { s with inp := rest } t := by
  obtain ⟨b, rest, hi, -, rfl⟩ | ⟨b, rest, hi, rfl⟩ | ⟨-, -, rfl⟩ | ⟨w, -, -, rfl⟩ | ⟨-, rfl⟩ := execIn_next h
  · exact ⟨rest, .inr (by rw [hi, List.tail_cons]), store_setIp_frame { s with inp := rest } _ _ _⟩
  · exact ⟨rest, .inr (by rw [hi, List.tail_cons]), illegal_setIp_frame { s with inp := rest } _ _⟩
  · exact ⟨_, .inl rfl, changesOnly_refl _ _⟩
  · exact ⟨_, .inl rfl, store_setIp_frame s _ _ w⟩
  · exact ⟨_, .inl rfl, illegal_setIp_frame s _ _⟩

/-- Settles O51: the input is as before or without its first byte, and the rest is the frame of a Store. -/
theorem inFrame : Obligations.InFrame := by
  intro f s t h
  obtain ⟨rest, hrest, hreg, hmem, ⟨hinp, hout, hcalls, hcfg⟩, hrun⟩ := execIn_changesOnly h
  exact ⟨hreg, hmem, hout, hcalls, hcfg, hinp ▸ hrest, hrun⟩

/-! ## OUT (O52) -/

/-- Settles O52: the byte is the Word cut to 8 bits, and the resolution of the operand leaves the output alone. -/
theorem outEmitsTheLowByte : Obligations.OutEmitsTheLowByte := by
  intro f s hc
  refine ⟨(cValue f s.advance).setWidth 8, BitVec.toNat_setWidth 8 _, ?_⟩
  refine (perform_ok ((bind_ok (resolveC_ok hc)).trans (modify_micro _ _))).trans ?_
  rw [State.emit, afterC_out, advance_out]

/-! ## BIF when its index resolves (O53, O54) -/

section
variable {f : Fields} {s : State} (hc : cOk f s.advance = true)
include hc

/-- An index below `BIF_COUNT` is a call, which blocks or returns (R144, R145). -/
theorem exec_builtin_inTable (hi : (cValue f s.advance).toNat < s.cfg.bifCount) :
    (Config.builtin s.bifCalls (cValue f s.advance) (afterC f s.advance).ports = .blocks ∧
        exec (.builtin f) s = .next s) ∨
      ∃ e, Config.builtin s.bifCalls (cValue f s.advance) (afterC f s.advance).ports = .returns e ∧
        exec (.builtin f) s = .next ((afterC f s.advance).afterBuiltin e) := by
  have hb := bifBody_ok hc
  rw [advance_cfg, if_pos hi] at hb
  rw [← advance_bifCalls s, ← afterC_bifCalls f s.advance]
  exact (callBuiltin_cases (cValue f s.advance) (afterC f s.advance)).imp
    (fun ⟨he, hr⟩ => ⟨he, perform_blocked (hb.trans hr)⟩)
    (fun ⟨e, he, hr⟩ => ⟨e, he, perform_ok (hb.trans hr)⟩)

/-- An index that is not below `BIF_COUNT` fails, unless `BIF_BOUND = reference` lets it past the check (R146, D11). -/
theorem exec_builtin_fails (hi : ¬ (cValue f s.advance).toNat < s.cfg.bifCount)
    (hn : ¬ (s.cfg.bifBound = .reference ∧ (cValue f s.advance).toNat = s.cfg.bifCount)) :
    exec (.builtin f) s = .next { afterC f s.advance with run := .failed .fail } := by
  have hb := bifBody_ok hc
  rw [advance_cfg, if_neg hi, if_neg hn] at hb
  exact perform_fatal (hb.trans (raise_micro _ _))

theorem exec_builtin_pastTable (hi : (cValue f s.advance).toNat = s.cfg.bifCount) (hr : s.cfg.bifBound = .reference) :
    exec (.builtin f) s = .refused .builtinPastTable := by
  have hb := bifBody_ok hc
  rw [advance_cfg, if_neg hi.not_lt, if_pos ⟨hr, hi⟩] at hb
  exact perform_refused (hb.trans (refuse_micro _ _))

end

/-- What a builtin is given: beside IP, the state before the step (R144). -/
theorem ports_afterC_advance (f : Fields) (s : State) :
    (afterC f s.advance).ports =
      { regs := (afterC f s.advance).regs, memWords := s.cfg.memWords, mem := s.mem, inp := s.inp, out := s.out } := by
  simp [State.ports]

/-- A builtin's writes are its Words at addresses inside Memory, in order (log entry 10). -/
theorem foldl_builtinWrite_eq_filter (words : Nat) (m : Memory) (ws : List (Word × Word)) :
    ws.foldl (builtinWrite words) m =
      (ws.filter fun w => decide (w.1.toNat < words)).foldl (fun m w => writeWord m w.1.toNat w.2) m := by
  rw [List.foldl_filter]
  simp only [decide_eq_true_eq]
  rfl

/-- Settles O53: the call blocks, and the step has changed nothing, or it returns an effect, which is what the step does
beside the moves of IP. -/
theorem bifRunsTheBuiltin : Obligations.BifRunsTheBuiltin := by
  intro f s hc hi
  rw [← ports_afterC_advance]
  obtain ⟨he, hx⟩ | ⟨e, he, hx⟩ := exec_builtin_inTable hc hi
  · exact ⟨s, hx, rfl, rfl, by rw [he]⟩
  · refine ⟨_, hx, by simp, by simp, ?_⟩
    rw [he]
    exact ⟨rfl, by simp, by simp, by simp [foldl_builtinWrite_eq_filter]⟩

/-- Settles O54: past the table the index fails, and at its end `BIF_BOUND` decides. -/
theorem bifIndexOutOfRangeFails : Obligations.BifIndexOutOfRangeFails := by
  intro f s hc
  refine ⟨?_, fun ⟨hi, hr⟩ => exec_builtin_pastTable hc hi hr, rfl⟩
  rintro (hi | ⟨hi, hb⟩)
  · exact exec_builtin_fails hc hi.not_gt fun hn => hi.ne' hn.2
  · exact exec_builtin_fails hc hi.not_lt fun hn => by simp [hb] at hn

/-! ## The frame of BIF (O55) -/

/-- A move of IP and a change of the run state leave everything else as it was. -/
theorem setIp_run_frame (s : State) (a : Word) (r : RunState) :
    let t := { s.setIp a with run := r }
    (∀ q : Reg, q ≠ regIP → t.reg q = s.reg q) ∧ (∀ k, readByte t.mem k = readByte s.mem k) ∧ t.inp = s.inp ∧
      t.out = s.out ∧ t.bifCalls = s.bifCalls :=
  ⟨fun _ hq => reg_setIp_ne s a hq, fun _ => rfl, rfl, rfl, rfl⟩

/-- Settles O55: BIF calls a builtin, whose effect leaves the run state and the parameters alone, or waits, or fails
after moves of IP. -/
theorem bifFrame : Obligations.BifFrame := by
  intro f s t h
  obtain ⟨-, ⟨e, rfl⟩ | rfl⟩ | ⟨-, rfl⟩ | ⟨-, rfl⟩ := execBif_next h
  · exact ⟨by simp, .inl (by simp)⟩
  · exact ⟨rfl, .inl rfl⟩
  · obtain ⟨a, ha⟩ := afterC_advance_eq_setIp f s
    rw [ha]
    exact ⟨rfl, .inr ⟨.inr rfl, setIp_run_frame s a _⟩⟩
  · obtain ⟨a, ha⟩ := stopC_advance_eq_setIp f s
    rw [ha]
    exact ⟨rfl, .inr ⟨.inl rfl, setIp_run_frame s a _⟩⟩

end Sys2Proof.Machine
end

section
/-! Proofs of the exceptions family (60_exceptions.md): an opcode value of no instruction (O10), what a failing step has
changed (O21), and the cause of each terminal state (O22). The last two are read off `step_cases` and the ways an
instruction can end. -/

namespace Sys2Proof.Machine

/-! ## An opcode value of no instruction (O10) -/

/-- A word whose reserved field is 0 and whose opcode value is no mnemonic's is rejected for that value (R73). -/
theorem decode_unknownOpcode {n : OpNum} {w : Word} (hr : rsvField w = 0) (h : ∀ m, n.code m ≠ opField w) :
    decode n w = .error (.opcode (opField w)) := by
  have hs : n.select (opField w) = none := List.find?_eq_none.mpr fun m _ => by simpa using h m
  rw [decode, if_pos hr, hs]

/-- Its fetch stops after the increment of IP (R154). -/
theorem fetchInstr_unknownOpcode {s : State} (hm : s.inMemory s.ip = true) (hr : rsvField (s.load s.ip) = 0)
    (h : ∀ m, s.cfg.opnum.code m ≠ opField (s.load s.ip)) :
    fetchInstr s = .error (.fatal .opcode) s.advance := by
  rw [fetchInstr, bind_ok (fetchImm_ok s hm), bind_ok (get_micro _), advance_cfg, decode_unknownOpcode hr h]
  rfl

/-- Settles O10: such a word stops the fetch, and sixteen different numbers leave no value over. -/
theorem unknownOpcodeIsIllegal : Obligations.UnknownOpcodeIsIllegal := by
  refine ⟨fun s hrun hm hr h => ?_, fun n op hn => OpNum.code_surjective hn op⟩
  rw [step, hrun, fetchInstr_unknownOpcode hm hr h]
  rfl

section
variable {s t : State} {i : Instr}

/-! ## What a failing step has changed (O21) -/

/-- Where IP can be once the first Word of `i` is fetched and nothing but fetches has moved it (R71, R77). -/
def ipPastFetched (s : State) (i : Instr) (a : Word) : Prop :=
  a = s.ip + 1 ∨ (i.length = 2 ∧ a = s.ip + 1 + 1)

theorem length_eq_two (hi : i.fields.imm = true) (ht : i.mnemonic.takesImmediate = true) : i.length = 2 := by
  rw [Instr.length, hi, ht]
  rfl

/-- A state reached by nothing but the fetches of `i` differs from `s` in IP only. -/
theorem eq_setIp_of_fetched {u : State} (h : u = s.advance ∨ (i.length = 2 ∧ u = s.advance.advance)) :
    ∃ a, u = s.setIp a ∧ ipPastFetched s i a := by
  obtain rfl | ⟨hl, rfl⟩ := h
  · exact ⟨_, rfl, .inl rfl⟩
  · exact ⟨_, advance_advance_eq_setIp s, .inr ⟨hl, rfl⟩⟩

/-- An instruction that fails has moved IP past what it fetched, and as IN may have taken a byte: it is Illegal at an
operand, is an IN with no destination for its byte, or is a BIF whose index is in no table (R152, R161). Every other end
leaves the machine RUNNING or HALTED. -/
theorem NextOf.eq_of_failed {k : FailKind} (h : NextOf s i t) (hrun : s.run = .running) (hk : t.run = .failed k) :
    ∃ a rest, t = { s.setIp a with inp := rest, run := .failed k } ∧ ipPastFetched s i a ∧
      (rest = s.inp ∨ ∃ f b, i = .input f ∧ s.inp = b :: rest) := by
  cases h with
  | illegal _ u _ hu =>
    cases hk
    obtain ⟨a, rfl, ha⟩ := eq_setIp_of_fetched hu
    exact ⟨a, s.inp, rfl, ha, .inl rfl⟩
  | inIllegal f b rest hi =>
    cases hk
    exact ⟨_, rest, rfl, .inl rfl, .inr ⟨f, b, rfl, hi⟩⟩
  | bifFails f =>
    cases hk
    have hu := (afterC_eq f s.advance).imp_right fun ⟨hi, hc⟩ =>
      And.intro (length_eq_two (i := .builtin f) hi rfl) hc
    obtain ⟨a, hc, ha⟩ := eq_setIp_of_fetched hu
    exact ⟨a, s.inp, by rw [hc]; rfl, ha, .inl rfl⟩
  | _ => simp [hrun] at hk

/-! ## The cause of a terminal state (O22) -/

/-- What an instruction can do to the run state (R100, R151, R153). -/
theorem NextOf.run_cases (h : NextOf s i t) :
    t.run = s.run ∨ (t.run = .halted ∧ ∃ f, i = .halt f) ∨ t.run = .failed .illegal ∨
      (t.run = .failed .fail ∧ ∃ f, i = .builtin f) := by
  cases h with
  | halted f => exact .inr (.inl ⟨rfl, f, rfl⟩)
  | illegal | inIllegal => exact .inr (.inr (.inl rfl))
  | bifFails f => exact .inr (.inr (.inr ⟨rfl, f, rfl⟩))
  | _ => exact .inl (by simp)

/-- What a step can do to the run state: it stays, or ends for one of three causes, none of which is OVERFLOW (R157). -/
theorem step_run_cases (h : step s = .next t) :
    t.run = .running ∨ (t.run = .halted ∧ ∃ f, decode s.cfg.opnum (s.load s.ip) = .ok (.halt f)) ∨
      t.run = .failed .illegal ∨
      (t.run = .failed .fail ∧ ∃ f, decode s.cfg.opnum (s.load s.ip) = .ok (.builtin f)) := by
  obtain ⟨hrun, ⟨-, ⟨i, hd, he⟩ | rfl⟩ | ⟨-, rfl⟩⟩ := step_cases h
  · rw [hd, ← hrun]
    simpa only [Except.ok.injEq] using (exec_cases he).run_cases
  · exact .inr (.inr (.inl rfl))
  · exact .inr (.inr (.inl rfl))

end

/-- Settles O21: an instruction that fails has moved IP past its fetches and taken at most a byte, and a fetch that
fails has moved IP past the word, or not at all outside Memory. -/
theorem failingStepIsPrecise : Obligations.FailingStepIsPrecise := by
  intro s t k hrun h hk
  obtain ⟨-, ⟨hm, ⟨i, hd, he⟩ | rfl⟩ | ⟨hm, rfl⟩⟩ := step_cases h
  · obtain ⟨a, rest, rfl, ha, hrest⟩ := (exec_cases he).eq_of_failed hrun hk
    have hip : a = s.ip + 1 ∨ ∃ i, decode s.cfg.opnum (s.load s.ip) = .ok i ∧ i.length = 2 ∧ a = s.ip + 1 + 1 :=
      ha.imp_right fun h2 => ⟨i, hd, h2⟩
    rw [← ip_setIp s a] at hip
    refine ⟨fun r hr => reg_setIp_ne s a hr, rfl, rfl, rfl, rfl, .inr ⟨hm, hip⟩, hrest.imp_right ?_⟩
    rintro ⟨f, b, rfl, hb⟩
    exact ⟨f, b, hd, hb⟩
  · exact ⟨fun r hr => reg_advance_ne s hr, rfl, rfl, rfl, rfl, .inr ⟨hm, .inl (ip_advance s)⟩, .inl rfl⟩
  · exact ⟨fun _ _ => rfl, rfl, rfl, rfl, rfl, .inl ⟨hm, rfl⟩, .inl rfl⟩

/-- Settles O22: each of the four things a step can do to the run state has the cause it should. -/
theorem terminalStatesHaveTheirCauses : Obligations.TerminalStatesHaveTheirCauses := by
  intro s t _ h
  obtain hr | ⟨hr, hf⟩ | hr | ⟨hr, hf⟩ := step_run_cases h <;> rw [hr]
  · exact ⟨nofun, nofun, nofun⟩
  · exact ⟨nofun, fun _ => hf, nofun⟩
  · exact ⟨nofun, nofun, nofun⟩
  · exact ⟨nofun, nofun, fun _ => hf⟩

end Sys2Proof.Machine
end
